-- ==== Sys2Proof/Word.lean ====
section
/-! DEFINITION. The machine word, the byte that memory is written down in, and the register number. -/

namespace Sys2Proof

/-- A Word: 16 bits, the unit of registers, addresses, memory and instructions (R3, R5, D2, D3).
`+` and `-` on it wrap modulo 65536 (R5, R15, R109). -/
abbrev Word := BitVec 16

/-- Half of a word. The machine has no byte access (R33); memory is only written down in bytes (log 9). -/
abbrev Byte := BitVec 8

/-- A register number: every 3-bit register field names one of `R0` to `R7`, none excluded (R10, R11, R54). -/
abbrev Reg := Fin 8

/-- The eight general registers, `x[0]` to `x[7]` (R10). -/
abbrev RegFile := Vector Word 8

end Sys2Proof
end

