-- ==== Sys2Proof/Config.lean ====
section
/-! DEFINITION. The parameters of the machine (00_scope.md R3), as plain data, and the free values they may select. -/

namespace Sys2Proof

/-- The operations of class 01, selected by the `alu` field (R59). -/
inductive AluOp where
  | add
  | sub
  | and
  | or
  | cmp
  deriving DecidableEq, Repr

/-- The values of the three flags, as FLAG_RULE gives them (R16, R91). -/
structure Flags where
  z : Bool
  c : Bool
  m : Bool
  deriving DecidableEq, Repr, Inhabited

/-- What stands behind an address (MEM_MAP, R37).
`device` is a platform device's window (R36): it sees the accesses made there, and what it answers a read is free. -/
inductive RegionKind where
  | readWrite
  | readOnly
  | unbacked
  | device
  deriving DecidableEq, Repr

/-- One row of MEM_MAP: `size` words from word address `base` on. -/
structure Region where
  base : Nat
  size : Nat
  kind : RegionKind
  deriving DecidableEq, Repr

/-- FLAG_RULE (R91, D13, D29). `borrow` is the spec's default, in which C after a subtraction is the borrow.
`notBorrow` is the alternative D29 names. `uninterpreted` leaves the rule free: `Config.freeFlags`. -/
inductive FlagRule where
  | borrow
  | notBorrow
  | uninterpreted
  deriving DecidableEq, Repr

/-- CMP_RULE (R108, D14): what `cmp` compares its register with. `zero` is the spec's default.
`uninterpreted` leaves the operand free: `Config.freeCmpOperand`. -/
inductive CmpRule where
  | zero
  | uninterpreted
  deriving DecidableEq, Repr

/-- UNUSED_FIELD_POLICY (R57, D10). -/
inductive UnusedFieldPolicy where
  | ignore
  | refuse
  deriving DecidableEq, Repr

/-- STORE_DATA_FIELD (D11): the field of a store that names the stored register. -/
inductive StoreDataField where
  | bits10to8
  | bits2to0
  deriving DecidableEq, Repr

/-- The parameters a model takes as arguments (R3), with the spec's defaults. HALT_PC has no default in the spec;
`none` is a machine whose runs have no end address (log 5). -/
structure Config where
  resetPc : Word := 0x0000#16
  haltPc : Option Word := none
  memMap : List Region := []
  flagRule : FlagRule := .borrow
  cmpRule : CmpRule := .zero
  unusedFields : UnusedFieldPolicy := .ignore
  subiReversed : Bool := false
  storeData : StoreDataField := .bits10to8
  deriving DecidableEq, Repr

/-- Every parameter at the spec's default. -/
def Config.default : Config := {}

/-- One memory access of one word, as R39 lists them and as a device that is mapped there sees it (R36). -/
inductive Access where
  | read (a : Word)
  | write (a v : Word)
  deriving DecidableEq, Repr

/-- FREE VALUE (log 7). The flags a class 01 instruction leaves under an uninterpreted FLAG_RULE, from the flags
before, the operation, its operands and its result. Nothing is known of it. -/
opaque Config.freeFlags : Flags → AluOp → Word → Word → Word → Flags

/-- FREE VALUE (log 8). What `cmp` compares register `r` with under an uninterpreted CMP_RULE, from the register
number and the register file. Nothing is known of it. -/
opaque Config.freeCmpOperand : Reg → RegFile → Word

/-- FREE VALUE (log 28). The word a device answers a read at address `a` with, after the accesses that devices have
seen so far. Each device read lengthens that list, so no two reads of a run need agree. Nothing is known of it. -/
opaque Config.freeDeviceWord : List Access → Word → Word

end Sys2Proof
end

