-- ==== Sys2Proof/Machine/State.lean ====
section
/-! DEFINITION. The machine state (10_state.md), the reasons a step can stop, and the state after reset. -/

namespace Sys2Proof.Machine

/-- Which way a memory access goes. -/
inductive AccessKind where
  | read
  | write
  deriving DecidableEq, Repr

/-- The model faults of 60_exceptions.md. They are outcomes of the model and not hardware events (R145, R146): a step
that faults changes no state and the run ends. -/
inductive Fault where
  /-- Raised by decode when the word `iw` fetched at `a` is a reserved encoding (R146, R60). Safe: no claim is proved of
  a run that reaches it. -/
  | illegalInstruction (a iw : Word)
  /-- Raised by a memory access that MEM_MAP does not allow: at an unbacked address, or a write to read-only memory
  (R147). Safe. -/
  | busFault (a : Word) (kind : AccessKind)
  /-- Raised by a read of a memory word that was neither loaded nor written (R148). Safe. -/
  | uninitialisedRead (a : Word)
  deriving DecidableEq, Repr

/-- What the model declines to run. -/
inductive Refusal where
  /-- Raised by `exec` for an instruction that has no meaning yet. Safe. No instruction is in this case. -/
  | notModelled (mnemonic : String)
  /-- Raised by decode when the word `iw` fetched at `a` sets unused bits and UNUSED_FIELD_POLICY is `refuse` (R57, U6).
  Safe. Never raised under the default policy. -/
  | unusedFieldBits (a iw : Word)
  deriving DecidableEq, Repr

/-- Memory, written down as bytes at cell addresses: the word at word address `a` is the cells `2 a` (its low byte) and
`2 a + 1` (its high byte) (log 9). A word with no cells has no value (R148). -/
abbrev Memory := List Host.Cell

/-- The machine state: the complete architectural state of 10_state.md, what devices have seen of it (R36, log 28), and
the parameters `cfg` (R3), which no step changes (log 6). -/
structure State where
  /-- `x[0]` to `x[7]` (R10) -/
  regs : RegFile
  /-- the program counter, a word address (R12) -/
  pc : Word
  /-- the zero flag `Z` (R16) -/
  flagZ : Bool
  /-- the carry flag `C` (R16) -/
  flagC : Bool
  /-- the minus flag `M` (R16) -/
  flagM : Bool
  /-- the memory `M[0..65535]` (R30, R31) -/
  mem : Memory
  /-- the accesses that platform devices have seen, oldest first (R36, log 28); not architectural state: no instruction
  reads it, and only the free answers of devices depend on it -/
  deviceSeen : List Access
  /-- the parameters of the machine (R3); not architectural state -/
  cfg : Config
  deriving DecidableEq, Repr

/-- The machine launched with parameters `cfg` and memory `image`: `pc = RESET_PC` (R22, R23, R165). The spec leaves the
registers and flags unspecified; the values named here are log 1 and log 2 (DESIGN CHOICE, unsafe). That devices have
seen no access yet is log 28 (DESIGN CHOICE). -/
def State.launch (cfg : Config) (image : Memory) : State where
  regs := Vector.replicate 8 0x0000#16
  pc := cfg.resetPc
  flagZ := false
  flagC := false
  flagM := false
  mem := image
  deviceSeen := []
  cfg := cfg

/-- The machine right after reset, with the spec's default parameters and nothing loaded (R22, R165, log 27). -/
def State.reset : State :=
  State.launch Config.default []

end Sys2Proof.Machine
end

