-- ==== Sys2Proof/Machine/Ops.lean ====
section
/-! DEFINITION. The named operations over memory, registers and the program counter, and how a step stops.
The machine has no trap entry and no return from one (R145, R151, R152): what stops a step is a model fault, and
`Stop.result` is the one place where it ends the step. -/

namespace Sys2Proof.Machine

/-- The outcome of a step or of an instruction. -/
abbrev Result := Host.Outcome State Fault Refusal

/-- Why an access or a fetch cannot go on. -/
inductive Stop where
  | fault (f : Fault)
  | refusal (r : Refusal)
  deriving DecidableEq, Repr

/-- Ending a step: the outcome carries the reason and no state, so that nothing has changed (R146, R147, R148, R150). -/
def Stop.result : Stop → Result
  | .fault f => .fault f
  | .refusal r => .refused r

/-! ### Memory as cells -/

/-- The byte in the cell at address `a`, if there is one. -/
def Memory.byteAt : Memory → Nat → Option Byte
  | [], _ => none
  | (b, v) :: rest, a => if a = b then some v else Memory.byteAt rest a

/-- Put a byte in the cell at address `a`, keeping the addresses rising. -/
def Memory.setByte : Memory → Nat → Byte → Memory
  | [], a, v => [(a, v)]
  | (b, w) :: rest, a, v =>
    if a < b then (a, v) :: (b, w) :: rest
    else if a = b then (a, v) :: rest
    else (b, w) :: Memory.setByte rest a v

/-- The cell of the low byte of word `a` (log 9). -/
def lowCell (a : Word) : Nat := 2 * a.toNat

/-- The cell of the high byte of word `a` (log 9). -/
def highCell (a : Word) : Nat := 2 * a.toNat + 1

/-- The word made of a high and a low byte. -/
def joinBytes (high low : Byte) : Word := high ++ low

/-- The low byte of a word. -/
def lowByte (v : Word) : Byte := v.extractLsb' 0 8

/-- The high byte of a word. -/
def highByte (v : Word) : Byte := v.extractLsb' 8 8

/-- The word at word address `a`, if it was loaded or written (R32, R148). -/
def Memory.wordAt (m : Memory) (a : Word) : Option Word :=
  match Memory.byteAt m (lowCell a), Memory.byteAt m (highCell a) with
  | some low, some high => some (joinBytes high low)
  | _, _ => none

/-- Replace the word at word address `a` by `v` (R32). -/
def Memory.setWord (m : Memory) (a v : Word) : Memory :=
  Memory.setByte (Memory.setByte m (lowCell a) (lowByte v)) (highCell a) (highByte v)

/-- The words `ws` placed at `a` and the addresses after it, modulo 65536 (R15, R166). -/
def Memory.load (m : Memory) (a : Word) : List Word → Memory
  | [] => m
  | w :: ws => Memory.load (Memory.setWord m a w) (a + 1#16) ws

/-- The address of the other cell of the same word. -/
def otherCell (c : Nat) : Nat := if c % 2 = 0 then c + 1 else c - 1

/-- The canonical form of memory: cell addresses strictly rising, inside the 65536 words (R31), and both cells of a word
listed where one is, so that memory is a map from word addresses to words (R33). An unlisted word reads as no value,
so no entry can equal what an unlisted address reads as. -/
abbrev Memory.wf (m : Memory) : Prop :=
  m.Pairwise (fun c d => c.1 < d.1) ∧ (∀ c ∈ m, c.1 < 131072) ∧ ∀ c ∈ m, (Memory.byteAt m (otherCell c.1)).isSome = true

/-! ### Registers, flags, program counter -/

/-- `x[r]` (R6, R10). -/
def State.reg (s : State) (r : Reg) : Word := s.regs.get r

/-- `x[r] <- v` (R6); no register is hard-wired (R11). -/
def State.setReg (s : State) (r : Reg) (v : Word) : State :=
  { s with regs := s.regs.set r.val v r.isLt }

/-- `pc <- t` (R6). -/
def State.setPc (s : State) (t : Word) : State := { s with pc := t }

/-- `pc <- pc + 1`, modulo 65536 (R15). -/
def State.nextWord (s : State) : State := s.setPc (s.pc + 1#16)

/-- The three flags together; the machine has no register that holds them (R16, D28). -/
def State.flags (s : State) : Flags := ⟨s.flagZ, s.flagC, s.flagM⟩

/-- `Z, C, M <- f`. -/
def State.setFlags (s : State) (f : Flags) : State :=
  { s with flagZ := f.z, flagC := f.c, flagM := f.m }

/-- A device sees one more access (R36). -/
def State.deviceSees (s : State) (acc : Access) : State := { s with deviceSeen := s.deviceSeen ++ [acc] }

/-- The memory replaced by `m`. -/
def State.setMem (s : State) (m : Memory) : State := { s with mem := m }

/-! ### Memory accesses -/

/-- Whether word address `a` lies in a region. -/
def Region.covers (r : Region) (a : Word) : Bool :=
  r.base ≤ a.toNat && a.toNat < r.base + r.size

/-- What MEM_MAP says stands at `a`: the first region that covers it, and read/write memory where none does (R37). -/
def regionKind (cfg : Config) (a : Word) : RegionKind :=
  match cfg.memMap.find? fun r => Region.covers r a with
  | some r => r.kind
  | none => .readWrite

/-- Whether `a` lies in a platform device's window (R36). -/
def onDevice (cfg : Config) (a : Word) : Bool := regionKind cfg a == .device

/-- Whether MEM_MAP allows the access; if not, how it stops (R37, R147). An access to a device goes on (R36). -/
def mapStop (cfg : Config) (a : Word) (kind : AccessKind) : Option Stop :=
  match regionKind cfg a, kind with
  | .readWrite, _ => none
  | .readOnly, .read => none
  | .readOnly, .write => some (.fault (.busFault a .write))
  | .unbacked, k => some (.fault (.busFault a k))
  | .device, _ => none

/-- `MemRead(a, 1)` (R6, R32): the word at `a`, or why there is none (R147, R148). A device answers with a free word
(R36, log 28). -/
def State.memRead (s : State) (a : Word) : Except Stop Word :=
  match mapStop s.cfg a .read with
  | some stop => .error stop
  | none =>
    if onDevice s.cfg a then .ok (Config.freeDeviceWord s.deviceSeen a)
    else
      match Memory.wordAt s.mem a with
      | some v => .ok v
      | none => .error (.fault (.uninitialisedRead a))

/-- The state after a read at `a`: as before, but that a device mapped there has seen the read (R32, R36). -/
def State.afterRead (s : State) (a : Word) : State :=
  if onDevice s.cfg a then s.deviceSees (.read a) else s

/-- `MemWrite(a, 1, v)` (R6, R32): the state with word `a` replaced by `v`, or why the write is not allowed (R147). At a
device the write is the device's and no word of memory changes (R36). -/
def State.memWrite (s : State) (a v : Word) : Except Stop State :=
  match mapStop s.cfg a .write with
  | some stop => .error stop
  | none =>
    .ok (if onDevice s.cfg a then s.deviceSees (.write a v) else s.setMem (Memory.setWord s.mem a v))

/-- Go on with the word read at `a` in the state after the read, or stop. -/
def State.withRead (s : State) (a : Word) (k : Word → State → Result) : Result :=
  match s.memRead a with
  | .ok v => k v (s.afterRead a)
  | .error stop => stop.result

/-- Go on with the state after `v` is stored at `a`, or stop. -/
def State.withWrite (s : State) (a v : Word) (k : State → Result) : Result :=
  match s.memWrite a v with
  | .ok t => k t
  | .error stop => stop.result

end Sys2Proof.Machine
end

