-- ==== Sys2Proof/Machine/Flags.lean ====
section
/-! DEFINITION. The arithmetic of class 01 and the flag rule (R5, R91, R109). -/

namespace Sys2Proof.Machine

/-- `carry(a, b)`: the sum of the unsigned integers is 65536 or more (R5). -/
def carry (a b : Word) : Bool := decide (65536 ≤ a.toNat + b.toNat)

/-- `borrow(a, b)`: `a < b` as unsigned integers (R5). -/
def borrow (a b : Word) : Bool := decide (a.toNat < b.toNat)

/-- The result of a class 01 operation, 16 bits, modulo 65536; `cmp` subtracts (R108, R109). -/
def aluResult (op : AluOp) (a b : Word) : Word :=
  match op with
  | .add => a + b
  | .sub => a - b
  | .and => a &&& b
  | .or => a ||| b
  | .cmp => a - b

/-- FLAG_RULE at its default (R91): `Z` is set when the result is zero, `M` is bit 15 of the result, `C` is the carry of
an addition, the borrow of a subtraction or comparison, and 0 after AND and OR. -/
def defaultFlags (op : AluOp) (a b r : Word) : Flags where
  z := decide (r = 0x0000#16)
  m := r.getLsbD 15
  c :=
    match op with
    | .add => carry a b
    | .sub => borrow a b
    | .cmp => borrow a b
    | .and => false
    | .or => false

/-- FLAG_RULE with the complement of the borrow in `C` after a subtraction or comparison, the alternative of D29. -/
def notBorrowFlags (op : AluOp) (a b r : Word) : Flags :=
  match op with
  | .sub => { defaultFlags .sub a b r with c := !borrow a b }
  | .cmp => { defaultFlags .cmp a b r with c := !borrow a b }
  | .add => defaultFlags .add a b r
  | .and => defaultFlags .and a b r
  | .or => defaultFlags .or a b r

/-- FLAG_RULE(op, a, b, r) (R91): the flags a class 01 instruction leaves, `old` being the flags before it. -/
def flagRule (cfg : Config) (old : Flags) (op : AluOp) (a b r : Word) : Flags :=
  match cfg.flagRule with
  | .borrow => defaultFlags op a b r
  | .notBorrow => notBorrowFlags op a b r
  | .uninterpreted => Config.freeFlags old op a b r

/-- CMP_RULE (R108): what `cmp` compares `x[r]` with. -/
def cmpOperand (cfg : Config) (r : Reg) (regs : RegFile) : Word :=
  match cfg.cmpRule with
  | .zero => 0x0000#16
  | .uninterpreted => Config.freeCmpOperand r regs

end Sys2Proof.Machine
end

