-- ==== Sys2Proof/Machine/Operands.lean ====
section
/-! DEFINITION. The operand forms of classes 00 and 01 (R53, R70, R75). -/

namespace Sys2Proof.Machine

/-- The second operand, by addressing mode (R53). -/
inductive Operand where
  /-- `add = 00`: the immediate word -/
  | immediate (imm : Word)
  /-- `add = 01`: a register -/
  | register (src1 : Reg)
  /-- `add = 10`: the memory word at the effective address -/
  | indexed (disp : Word) (src1 src2 : Reg)
  /-- `add = 11`: the memory word whose address is the memory word at the effective address -/
  | indirect (disp : Word) (src1 src2 : Reg)
  deriving DecidableEq, Repr

/-- The effective address of a load or class 01 instruction, `imm + x[src1] + x[src2]` modulo 65536; the same register
may be named twice, and no flag is written (R70). -/
def State.effAddr (s : State) (disp : Word) (src1 src2 : Reg) : Word :=
  disp + s.reg src1 + s.reg src2

/-- The effective address of a store, `imm + x[dst1]` modulo 65536 (R75). -/
def State.storeAddr (s : State) (disp : Word) (dst1 : Reg) : Word :=
  disp + s.reg dst1

/-- Go on with the value of an operand (R53) in the state after its reads, which are in the order of R39. -/
def State.withOperand (s : State) (o : Operand) (k : Word → State → Result) : Result :=
  match o with
  | .immediate imm => k imm s
  | .register src1 => k (s.reg src1) s
  | .indexed disp src1 src2 => s.withRead (s.effAddr disp src1 src2) k
  | .indirect disp src1 src2 => s.withRead (s.effAddr disp src1 src2) fun ptr t => t.withRead ptr k

/-- The step over the second word, for the operand forms that have one (R14, R53): `pc <- pc + 1`, and nothing for a
register operand. The immediate forms of class 01 step over it too (C1, D7). -/
def State.pastOperand (s : State) (o : Operand) : State :=
  match o with
  | .register _ => s
  | .immediate _ => s.nextWord
  | .indexed _ _ _ => s.nextWord
  | .indirect _ _ _ => s.nextWord

end Sys2Proof.Machine
end

