-- ==== Sys2Proof/Machine/Alu.lean ====
section
/-! DEFINITION. Class 01, arithmetic and logical instructions (41_alu.md). Each meaning starts after the fetch (R7). -/

namespace Sys2Proof.Machine

/-- `r <- a op b`, `x[dst] <- r`, `Z, C, M <- FLAG_RULE(op, a, b, r)` (R90, R91). -/
def State.writeAlu (s : State) (op : AluOp) (dst : Reg) (a b : Word) : State :=
  (s.setReg dst (aluResult op a b)).setFlags (flagRule s.cfg s.flags op a b (aluResult op a b))

/-- A two-operand instruction: the first operand is the old value of the destination register, the second is selected by
the addressing mode (R90). -/
def aluOperand (op : AluOp) (dst : Reg) (o : Operand) (s : State) : Result :=
  s.withOperand o fun b t => .next ((t.writeAlu op dst (t.reg dst) b).pastOperand o)

/-- `addi`, Add Immediate (R92). -/
def execAddi (dst : Reg) (imm : Word) (s : State) : Result :=
  aluOperand .add dst (.immediate imm) s

/-- `addr`, Add Register (R93). -/
def execAddr (dst src1 : Reg) (s : State) : Result :=
  aluOperand .add dst (.register src1) s

/-- `addx`, Add with Base Indexed Addressing (R94). -/
def execAddx (dst : Reg) (disp : Word) (src1 src2 : Reg) (s : State) : Result :=
  aluOperand .add dst (.indexed disp src1 src2) s

/-- `addn`, Add with Memory Indirect Addressing (R95). -/
def execAddn (dst : Reg) (disp : Word) (src1 src2 : Reg) (s : State) : Result :=
  aluOperand .add dst (.indirect disp src1 src2) s

/-- `subi`, Subtract Immediate: register minus immediate (R96, C2), or immediate minus register where the parameter
SUBI_REVERSED says so (D8). -/
def execSubi (dst : Reg) (imm : Word) (s : State) : Result :=
  if s.cfg.subiReversed then .next (s.writeAlu .sub dst imm (s.reg dst)).nextWord
  else aluOperand .sub dst (.immediate imm) s

/-- `subr`, Subtract Register (R97). -/
def execSubr (dst src1 : Reg) (s : State) : Result :=
  aluOperand .sub dst (.register src1) s

/-- `subx`, Subtract with Base Indexed Addressing (R98). -/
def execSubx (dst : Reg) (disp : Word) (src1 src2 : Reg) (s : State) : Result :=
  aluOperand .sub dst (.indexed disp src1 src2) s

/-- `subn`, Subtract with Memory Indirect Addressing (R99). -/
def execSubn (dst : Reg) (disp : Word) (src1 src2 : Reg) (s : State) : Result :=
  aluOperand .sub dst (.indirect disp src1 src2) s

/-- `andi`, AND Immediate (R100). -/
def execAndi (dst : Reg) (imm : Word) (s : State) : Result :=
  aluOperand .and dst (.immediate imm) s

/-- `andr`, AND Register (R101). -/
def execAndr (dst src1 : Reg) (s : State) : Result :=
  aluOperand .and dst (.register src1) s

/-- `andx`, AND with Base Indexed Addressing (R102). -/
def execAndx (dst : Reg) (disp : Word) (src1 src2 : Reg) (s : State) : Result :=
  aluOperand .and dst (.indexed disp src1 src2) s

/-- `andn`, AND with Memory Indirect Addressing (R103). -/
def execAndn (dst : Reg) (disp : Word) (src1 src2 : Reg) (s : State) : Result :=
  aluOperand .and dst (.indirect disp src1 src2) s

/-- `ori`, OR Immediate (R104). -/
def execOri (dst : Reg) (imm : Word) (s : State) : Result :=
  aluOperand .or dst (.immediate imm) s

/-- `orr`, OR Register (R105). -/
def execOrr (dst src1 : Reg) (s : State) : Result :=
  aluOperand .or dst (.register src1) s

/-- `orx`, OR with Base Indexed Addressing (R106). -/
def execOrx (dst : Reg) (disp : Word) (src1 src2 : Reg) (s : State) : Result :=
  aluOperand .or dst (.indexed disp src1 src2) s

/-- `orn`, OR with Memory Indirect Addressing (R107). -/
def execOrn (dst : Reg) (disp : Word) (src1 src2 : Reg) (s : State) : Result :=
  aluOperand .or dst (.indirect disp src1 src2) s

/-- `cmp`, Compare: the flags of `x[reg] - b`, `b` given by CMP_RULE; no register is written (R108). -/
def execCmp (reg : Reg) (s : State) : Result :=
  .next (s.setFlags (flagRule s.cfg s.flags .cmp (s.reg reg) (cmpOperand s.cfg reg s.regs)
    (aluResult .cmp (s.reg reg) (cmpOperand s.cfg reg s.regs))))

end Sys2Proof.Machine
end

