-- ==== Sys2Proof/Machine/CallReturn.lean ====
section
/-! DEFINITION. Class 11, subroutine call and return (43_call_return.md). Each meaning starts after the fetch (R7). -/

namespace Sys2Proof.Machine

/-- `jal`, Jump and Link: `x[lnk] <- pc + 1`, `pc <- pc + disp`, the base being the address of the second word
(R135, C4). -/
def execJal (lnk : Reg) (disp : Word) (s : State) : Result :=
  .next ((s.setReg lnk (s.pc + 1#16)).setPc (s.pc + disp))

/-- `jr`, Return: `pc <- MemRead(x[lnk], 1)`, through memory (R136, C5). -/
def execJr (lnk : Reg) (s : State) : Result :=
  s.withRead (s.reg lnk) fun target t => .next (t.setPc target)

end Sys2Proof.Machine
end

