-- ==== Sys2Proof/Machine/Jump.lean ====
section
/-! DEFINITION. Class 10, the jumps (42_jump.md). Each meaning starts after the fetch (R7); the address word was read
there, taken or not (R39, log 13). -/

namespace Sys2Proof.Machine

/-- A jump: to the absolute address `target` when `taken`, else past the address word. No register, flag or memory word
is written (R120). -/
def jumpIf (taken : Bool) (target : Word) (s : State) : Result :=
  .next (if taken then s.setPc target else s.nextWord)

/-- `j`, Jump Unconditionally (R121). -/
def execJ (target : Word) (s : State) : Result :=
  jumpIf true target s

/-- `jz`, Jump on zero (R122). -/
def execJz (target : Word) (s : State) : Result :=
  jumpIf s.flagZ target s

/-- `jnz`, Jump on not zero (R123). -/
def execJnz (target : Word) (s : State) : Result :=
  jumpIf (!s.flagZ) target s

/-- `jc`, Jump on carry (R124). -/
def execJc (target : Word) (s : State) : Result :=
  jumpIf s.flagC target s

/-- `jnc`, Jump on not carry (R125). -/
def execJnc (target : Word) (s : State) : Result :=
  jumpIf (!s.flagC) target s

/-- `jm`, Jump on minus (R126). -/
def execJm (target : Word) (s : State) : Result :=
  jumpIf s.flagM target s

/-- `jnm`, Jump on not minus (R127). -/
def execJnm (target : Word) (s : State) : Result :=
  jumpIf (!s.flagM) target s

end Sys2Proof.Machine
end

