-- ==== Sys2Proof/Machine/LoadStore.lean ====
section
/-! DEFINITION. Class 00, loads and stores (40_load_store.md). Each meaning starts after the fetch, with `pc` at the word
after the instruction word (R7); the second word was read there and stands in the instruction (log 13). -/

namespace Sys2Proof.Machine

/-- A load: `x[dst] <- operand`, then past the second word; no flag is written (R18, R71 to R74). -/
def loadOperand (dst : Reg) (o : Operand) (s : State) : Result :=
  s.withOperand o fun v t => .next ((t.setReg dst v).pastOperand o)

/-- A store: `MemWrite(a, 1, x[src])`, then past the second word (R75, D12). -/
def storeAt (a : Word) (src : Reg) (s : State) : Result :=
  s.withWrite a (s.reg src) fun t => .next t.nextWord

/-- `li`, Load Immediate (R71). -/
def execLi (dst : Reg) (imm : Word) (s : State) : Result :=
  loadOperand dst (.immediate imm) s

/-- `lr`, Load Register (R72). -/
def execLr (dst src1 : Reg) (s : State) : Result :=
  loadOperand dst (.register src1) s

/-- `lx`, Load with Base Indexed Addressing (R73). -/
def execLx (dst : Reg) (disp : Word) (src1 src2 : Reg) (s : State) : Result :=
  loadOperand dst (.indexed disp src1 src2) s

/-- `ldn`, Load with Memory Indirect Addressing (R74). -/
def execLdn (dst : Reg) (disp : Word) (src1 src2 : Reg) (s : State) : Result :=
  loadOperand dst (.indirect disp src1 src2) s

/-- `stx`, Store with Base Indexed Addressing (R76). -/
def execStx (disp : Word) (dst1 src : Reg) (s : State) : Result :=
  storeAt (s.storeAddr disp dst1) src s

/-- `sdn`, Store with Memory Indirect Addressing (R77). -/
def execSdn (disp : Word) (dst1 src : Reg) (s : State) : Result :=
  s.withRead (s.storeAddr disp dst1) fun ptr t => storeAt ptr src t

end Sys2Proof.Machine
end

