-- ==== Sys2Proof/Syntax.lean ====
section
/-! DEFINITION. The instructions: one constructor for each of the 32 rows of opcode_table.json (R58). -/

namespace Sys2Proof

/-- An instruction with its operands, in the order of the spec's assembler lines (R62). `imm`, `disp` and `target` are
the second word, used whole (R56). Unused bits are no part of an instruction (R57). -/
inductive Instr where
  -- class 00, load and store
  | li (dst : Reg) (imm : Word)
  | lr (dst src1 : Reg)
  | lx (dst : Reg) (disp : Word) (src1 src2 : Reg)
  | ldn (dst : Reg) (disp : Word) (src1 src2 : Reg)
  | stx (disp : Word) (dst1 src : Reg)
  | sdn (disp : Word) (dst1 src : Reg)
  -- class 01, arithmetic and logic
  | addi (dst : Reg) (imm : Word)
  | addr (dst src1 : Reg)
  | addx (dst : Reg) (disp : Word) (src1 src2 : Reg)
  | addn (dst : Reg) (disp : Word) (src1 src2 : Reg)
  | subi (dst : Reg) (imm : Word)
  | subr (dst src1 : Reg)
  | subx (dst : Reg) (disp : Word) (src1 src2 : Reg)
  | subn (dst : Reg) (disp : Word) (src1 src2 : Reg)
  | andi (dst : Reg) (imm : Word)
  | andr (dst src1 : Reg)
  | andx (dst : Reg) (disp : Word) (src1 src2 : Reg)
  | andn (dst : Reg) (disp : Word) (src1 src2 : Reg)
  | ori (dst : Reg) (imm : Word)
  | orr (dst src1 : Reg)
  | orx (dst : Reg) (disp : Word) (src1 src2 : Reg)
  | orn (dst : Reg) (disp : Word) (src1 src2 : Reg)
  | cmp (reg : Reg)
  -- class 10, jumps
  | j (target : Word)
  | jz (target : Word)
  | jnz (target : Word)
  | jc (target : Word)
  | jnc (target : Word)
  | jm (target : Word)
  | jnm (target : Word)
  -- class 11, call and return
  | jal (lnk : Reg) (disp : Word)
  | jr (lnk : Reg)
  deriving DecidableEq, Repr

end Sys2Proof
end

