-- ==== Sys2Proof/Machine/Dispatch.lean ====
section
/-! DEFINITION. The meaning of each instruction, one arm a constructor (R58). -/

namespace Sys2Proof.Machine

/-- The execute phase of an instruction. On entry `pc` is the address of the word after the instruction word (R7). -/
def exec (i : Instr) (s : State) : Host.Outcome State Fault Refusal :=
  match i with
  | .li dst imm => Sys2Proof.Machine.execLi dst imm s
  | .lr dst src1 => Sys2Proof.Machine.execLr dst src1 s
  | .lx dst disp src1 src2 => Sys2Proof.Machine.execLx dst disp src1 src2 s
  | .ldn dst disp src1 src2 => Sys2Proof.Machine.execLdn dst disp src1 src2 s
  | .stx disp dst1 src => Sys2Proof.Machine.execStx disp dst1 src s
  | .sdn disp dst1 src => Sys2Proof.Machine.execSdn disp dst1 src s
  | .addi dst imm => Sys2Proof.Machine.execAddi dst imm s
  | .addr dst src1 => Sys2Proof.Machine.execAddr dst src1 s
  | .addx dst disp src1 src2 => Sys2Proof.Machine.execAddx dst disp src1 src2 s
  | .addn dst disp src1 src2 => Sys2Proof.Machine.execAddn dst disp src1 src2 s
  | .subi dst imm => Sys2Proof.Machine.execSubi dst imm s
  | .subr dst src1 => Sys2Proof.Machine.execSubr dst src1 s
  | .subx dst disp src1 src2 => Sys2Proof.Machine.execSubx dst disp src1 src2 s
  | .subn dst disp src1 src2 => Sys2Proof.Machine.execSubn dst disp src1 src2 s
  | .andi dst imm => Sys2Proof.Machine.execAndi dst imm s
  | .andr dst src1 => Sys2Proof.Machine.execAndr dst src1 s
  | .andx dst disp src1 src2 => Sys2Proof.Machine.execAndx dst disp src1 src2 s
  | .andn dst disp src1 src2 => Sys2Proof.Machine.execAndn dst disp src1 src2 s
  | .ori dst imm => Sys2Proof.Machine.execOri dst imm s
  | .orr dst src1 => Sys2Proof.Machine.execOrr dst src1 s
  | .orx dst disp src1 src2 => Sys2Proof.Machine.execOrx dst disp src1 src2 s
  | .orn dst disp src1 src2 => Sys2Proof.Machine.execOrn dst disp src1 src2 s
  | .cmp reg => Sys2Proof.Machine.execCmp reg s
  | .j target => Sys2Proof.Machine.execJ target s
  | .jz target => Sys2Proof.Machine.execJz target s
  | .jnz target => Sys2Proof.Machine.execJnz target s
  | .jc target => Sys2Proof.Machine.execJc target s
  | .jnc target => Sys2Proof.Machine.execJnc target s
  | .jm target => Sys2Proof.Machine.execJm target s
  | .jnm target => Sys2Proof.Machine.execJnm target s
  | .jal lnk disp => Sys2Proof.Machine.execJal lnk disp s
  | .jr lnk => Sys2Proof.Machine.execJr lnk s

end Sys2Proof.Machine
end

