-- ==== Sys2Proof/WellFormed.lean ====
section
/-! DEFINITION. What is well-formed before anything runs: the words of an instruction, and a MEM_MAP.
A term of `Instr` is well-formed by its types: each register field admits all of its eight values and each second word
all of its 65536 (R11, R54, R56). So the checks here are on words, read from R55, R57 and R60 and not from the decoder
(an obligation says that the two agree), and on the platform's parameters. -/

namespace Sys2Proof

/-- `lo <= iw <= hi` as unsigned numbers. -/
def Word.within (iw : Word) (lo hi : Nat) : Bool :=
  lo ≤ iw.toNat && iw.toNat ≤ hi

/-- The reserved first words, block by block as R60 and U1 to U5 give them: class 00 with `ins` 000, a store with
`add` 00 or 01, class 00 with `ins` 011 to 111, class 01 with `alu` 101 to 111, class 10 with `typ` 000. -/
def Word.reserved (iw : Word) : Bool :=
  iw.within 0x0000 0x07FF
    || (iw &&& 0xF880#16 == 0x1000#16)
    || iw.within 0x1800 0x3FFF
    || iw.within 0x6800 0x7FFF
    || iw.within 0x8000 0x87FF

/-- The number of words of the instruction whose first word is `iw`, for an `iw` that is not reserved (R55). -/
def Word.instrLength (iw : Word) : Nat :=
  match (iw >>> 14).toNat with
  | 0 => if iw &&& 0x00C0#16 = 0x0040#16 then 1 else 2
  | 1 => if iw &&& 0x3800#16 = 0x2000#16 ∨ iw &&& 0x00C0#16 = 0x0040#16 then 1 else 2
  | 2 => 2
  | _ => if iw &&& 0x2000#16 = 0x2000#16 then 2 else 1

/-- `ws` is exactly one instruction: a first word that is not reserved, and as many words as R55 says. -/
def Encoded.wf (ws : List Word) : Bool :=
  match ws with
  | [] => false
  | iw :: rest => !iw.reserved && rest.length + 1 == iw.instrLength

/-- A region of MEM_MAP holds at least one word and lies inside the 65536 words (R31, R37). -/
def Region.wf (r : Region) : Bool :=
  0 < r.size && r.base + r.size ≤ 65536

/-- Two regions share no address. -/
def Region.apart (r q : Region) : Bool :=
  r.base + r.size ≤ q.base || q.base + q.size ≤ r.base

/-- A MEM_MAP is well-formed when each region is and no two overlap, so that it says one thing of each address. -/
def Config.wf (cfg : Config) : Bool :=
  cfg.memMap.all Region.wf && decide (cfg.memMap.Pairwise fun r q => r.apart q = true)

end Sys2Proof
end

