-- ==== Sys2Proof/Decode.lean ====
section
/-! DEFINITION. The decoder, from the op-code map R58, and the encoder. Decoding is total on any list of words and
rejects by name. -/

namespace Sys2Proof

/-- The 32 rows of the op-code map (R58), without operands. -/
inductive Op where
  | li | lr | lx | ldn | stx | sdn
  | addi | addr | addx | addn
  | subi | subr | subx | subn
  | andi | andr | andx | andn
  | ori | orr | orx | orn
  | cmp
  | j | jz | jnz | jc | jnc | jm | jnm
  | jal | jr
  deriving DecidableEq, Repr

/-- One row of the op-code map: a first word `iw` selects it when `iw &&& mask = value` (R58). -/
structure OpRow where
  op : Op
  value : Word
  mask : Word
  words : Nat
  deriving DecidableEq, Repr

/-- The op-code map, row by row (R58). -/
def opTable : List OpRow :=
  [⟨.li,   0x0800#16, 0xF8C0#16, 2⟩,
   ⟨.lr,   0x0840#16, 0xF8C0#16, 1⟩,
   ⟨.lx,   0x0880#16, 0xF8C0#16, 2⟩,
   ⟨.ldn,  0x08C0#16, 0xF8C0#16, 2⟩,
   ⟨.stx,  0x1080#16, 0xF8C0#16, 2⟩,
   ⟨.sdn,  0x10C0#16, 0xF8C0#16, 2⟩,
   ⟨.addi, 0x4000#16, 0xF8C0#16, 2⟩,
   ⟨.addr, 0x4040#16, 0xF8C0#16, 1⟩,
   ⟨.addx, 0x4080#16, 0xF8C0#16, 2⟩,
   ⟨.addn, 0x40C0#16, 0xF8C0#16, 2⟩,
   ⟨.subi, 0x4800#16, 0xF8C0#16, 2⟩,
   ⟨.subr, 0x4840#16, 0xF8C0#16, 1⟩,
   ⟨.subx, 0x4880#16, 0xF8C0#16, 2⟩,
   ⟨.subn, 0x48C0#16, 0xF8C0#16, 2⟩,
   ⟨.andi, 0x5000#16, 0xF8C0#16, 2⟩,
   ⟨.andr, 0x5040#16, 0xF8C0#16, 1⟩]
  ++
  [⟨.andx, 0x5080#16, 0xF8C0#16, 2⟩,
   ⟨.andn, 0x50C0#16, 0xF8C0#16, 2⟩,
   ⟨.ori,  0x5800#16, 0xF8C0#16, 2⟩,
   ⟨.orr,  0x5840#16, 0xF8C0#16, 1⟩,
   ⟨.orx,  0x5880#16, 0xF8C0#16, 2⟩,
   ⟨.orn,  0x58C0#16, 0xF8C0#16, 2⟩,
   ⟨.cmp,  0x6000#16, 0xF800#16, 1⟩,
   ⟨.j,    0x8800#16, 0xF800#16, 2⟩,
   ⟨.jz,   0x9000#16, 0xF800#16, 2⟩,
   ⟨.jnz,  0x9800#16, 0xF800#16, 2⟩,
   ⟨.jc,   0xA000#16, 0xF800#16, 2⟩,
   ⟨.jnc,  0xA800#16, 0xF800#16, 2⟩,
   ⟨.jm,   0xB000#16, 0xF800#16, 2⟩,
   ⟨.jnm,  0xB800#16, 0xF800#16, 2⟩,
   ⟨.jal,  0xE000#16, 0xE000#16, 2⟩,
   ⟨.jr,   0xC000#16, 0xE000#16, 1⟩]

/-- The row a first word selects (R58); none when the word is reserved (R60). -/
def findRow (iw : Word) : Option OpRow :=
  opTable.find? fun row => iw &&& row.mask == row.value

/-- The 3-bit field of `iw` whose lowest bit is bit `lo`, as a register number (R51, R54). -/
def regField (iw : Word) (lo : Nat) : Reg :=
  ⟨(iw.extractLsb' lo 3).toNat, (iw.extractLsb' lo 3).isLt⟩

/-- The field of a store that names the stored register: `src`, bits 10:8 (R75, C6), or bits 2:0 where the parameter
STORE_DATA_FIELD says so (D11). -/
def storeDataLo (cfg : Config) : Nat :=
  match cfg.storeData with
  | .bits10to8 => 8
  | .bits2to0 => 0

/-- The bits of the first word that hold the register fields of an instruction of row `op` (R51, R57, R58). -/
def operandBits (cfg : Config) : Op → Word
  | .li | .addi | .subi | .andi | .ori => 0x0700#16
  | .lr | .addr | .subr | .andr | .orr => 0x0738#16
  | .lx | .ldn | .addx | .addn | .subx | .subn | .andx | .andn | .orx | .orn => 0x073F#16
  | .stx | .sdn => 0x0038#16 ||| (0x0007#16 <<< storeDataLo cfg)
  | .cmp | .jal | .jr => 0x0007#16
  | .j | .jz | .jnz | .jc | .jnc | .jm | .jnm => 0x0000#16

/-- The unused bits of a row: neither fixed by its mask nor in a register field (R57). -/
def unusedBits (cfg : Config) (row : OpRow) : Word :=
  ~~~(row.mask ||| operandBits cfg row.op)

/-- Whether UNUSED_FIELD_POLICY lets the unused bits of `iw` stand: `ignore` always does, `refuse` accepts only all
zeros or all ones (R57). -/
def unusedAccepted (cfg : Config) (row : OpRow) (iw : Word) : Bool :=
  match cfg.unusedFields with
  | .ignore => true
  | .refuse =>
    iw &&& unusedBits cfg row == 0x0000#16 || iw &&& unusedBits cfg row == unusedBits cfg row

/-- Why a list of words is no instruction. -/
inductive DecodeError where
  /-- there is no first word -/
  | noWord
  /-- the first word is a reserved encoding (R60) -/
  | reserved (iw : Word)
  /-- the first word sets unused bits and UNUSED_FIELD_POLICY is `refuse` (R57) -/
  | unusedFieldBits (iw : Word)
  /-- a two-word instruction without its second word (R55) -/
  | noSecondWord (iw : Word)
  deriving DecidableEq, Repr

/-- What the first word alone decides: the row, and with it the length (R55, R58), or the rejection (R57, R60). -/
def decodeFirst (cfg : Config) (iw : Word) : Except DecodeError OpRow :=
  match findRow iw with
  | none => .error (.reserved iw)
  | some row => if unusedAccepted cfg row iw then .ok row else .error (.unusedFieldBits iw)

/-- The instruction of row `op` with the register fields of `iw` and the second word `w2` (R51, R56, R64); a one-word
instruction makes no use of `w2`. -/
def assemble (cfg : Config) (op : Op) (iw w2 : Word) : Instr :=
  match op with
  | .li => .li (regField iw 8) w2
  | .lr => .lr (regField iw 8) (regField iw 3)
  | .lx => .lx (regField iw 8) w2 (regField iw 3) (regField iw 0)
  | .ldn => .ldn (regField iw 8) w2 (regField iw 3) (regField iw 0)
  | .stx => .stx w2 (regField iw 3) (regField iw (storeDataLo cfg))
  | .sdn => .sdn w2 (regField iw 3) (regField iw (storeDataLo cfg))
  | .addi => .addi (regField iw 8) w2
  | .addr => .addr (regField iw 8) (regField iw 3)
  | .addx => .addx (regField iw 8) w2 (regField iw 3) (regField iw 0)
  | .addn => .addn (regField iw 8) w2 (regField iw 3) (regField iw 0)
  | .subi => .subi (regField iw 8) w2
  | .subr => .subr (regField iw 8) (regField iw 3)
  | .subx => .subx (regField iw 8) w2 (regField iw 3) (regField iw 0)
  | .subn => .subn (regField iw 8) w2 (regField iw 3) (regField iw 0)
  | .andi => .andi (regField iw 8) w2
  | .andr => .andr (regField iw 8) (regField iw 3)
  | .andx => .andx (regField iw 8) w2 (regField iw 3) (regField iw 0)
  | .andn => .andn (regField iw 8) w2 (regField iw 3) (regField iw 0)
  | .ori => .ori (regField iw 8) w2
  | .orr => .orr (regField iw 8) (regField iw 3)
  | .orx => .orx (regField iw 8) w2 (regField iw 3) (regField iw 0)
  | .orn => .orn (regField iw 8) w2 (regField iw 3) (regField iw 0)
  | .cmp => .cmp (regField iw 0)
  | .j => .j w2
  | .jz => .jz w2
  | .jnz => .jnz w2
  | .jc => .jc w2
  | .jnc => .jnc w2
  | .jm => .jm w2
  | .jnm => .jnm w2
  | .jal => .jal (regField iw 0) w2
  | .jr => .jr (regField iw 0)

/-- The decoder: the instruction at the head of a list of words, and the words after it. -/
def decode (cfg : Config) : List Word → Except DecodeError (Instr × List Word)
  | [] => .error .noWord
  | iw :: rest =>
    match decodeFirst cfg iw with
    | .error e => .error e
    | .ok row =>
      if row.words = 1 then .ok (assemble cfg row.op iw 0x0000#16, rest)
      else
        match rest with
        | [] => .error (.noSecondWord iw)
        | w2 :: rest' => .ok (assemble cfg row.op iw w2, rest')

/-- Register number `r` in the 3-bit field whose lowest bit is bit `lo` (R51, R54). -/
def placeReg (r : Reg) (lo : Nat) : Word :=
  BitVec.ofNat 16 r.val <<< lo

/-- The first word of an instruction with the three register fields of the load and class 01 layouts (R51). -/
def threeRegs (value : Word) (dst src1 src2 : Reg) : Word :=
  value ||| placeReg dst 8 ||| placeReg src1 3 ||| placeReg src2 0

/-- The encoder: the words of an instruction, first word first, with 0 in every unused bit (R57, R58, R62). -/
def encode (cfg : Config) : Instr → List Word
  | .li dst imm => [0x0800#16 ||| placeReg dst 8, imm]
  | .lr dst src1 => [0x0840#16 ||| placeReg dst 8 ||| placeReg src1 3]
  | .lx dst disp src1 src2 => [threeRegs 0x0880#16 dst src1 src2, disp]
  | .ldn dst disp src1 src2 => [threeRegs 0x08C0#16 dst src1 src2, disp]
  | .stx disp dst1 src => [0x1080#16 ||| placeReg src (storeDataLo cfg) ||| placeReg dst1 3, disp]
  | .sdn disp dst1 src => [0x10C0#16 ||| placeReg src (storeDataLo cfg) ||| placeReg dst1 3, disp]
  | .addi dst imm => [0x4000#16 ||| placeReg dst 8, imm]
  | .addr dst src1 => [0x4040#16 ||| placeReg dst 8 ||| placeReg src1 3]
  | .addx dst disp src1 src2 => [threeRegs 0x4080#16 dst src1 src2, disp]
  | .addn dst disp src1 src2 => [threeRegs 0x40C0#16 dst src1 src2, disp]
  | .subi dst imm => [0x4800#16 ||| placeReg dst 8, imm]
  | .subr dst src1 => [0x4840#16 ||| placeReg dst 8 ||| placeReg src1 3]
  | .subx dst disp src1 src2 => [threeRegs 0x4880#16 dst src1 src2, disp]
  | .subn dst disp src1 src2 => [threeRegs 0x48C0#16 dst src1 src2, disp]
  | .andi dst imm => [0x5000#16 ||| placeReg dst 8, imm]
  | .andr dst src1 => [0x5040#16 ||| placeReg dst 8 ||| placeReg src1 3]
  | .andx dst disp src1 src2 => [threeRegs 0x5080#16 dst src1 src2, disp]
  | .andn dst disp src1 src2 => [threeRegs 0x50C0#16 dst src1 src2, disp]
  | .ori dst imm => [0x5800#16 ||| placeReg dst 8, imm]
  | .orr dst src1 => [0x5840#16 ||| placeReg dst 8 ||| placeReg src1 3]
  | .orx dst disp src1 src2 => [threeRegs 0x5880#16 dst src1 src2, disp]
  | .orn dst disp src1 src2 => [threeRegs 0x58C0#16 dst src1 src2, disp]
  | .cmp reg => [0x6000#16 ||| placeReg reg 0]
  | .j target => [0x8800#16, target]
  | .jz target => [0x9000#16, target]
  | .jnz target => [0x9800#16, target]
  | .jc target => [0xA000#16, target]
  | .jnc target => [0xA800#16, target]
  | .jm target => [0xB000#16, target]
  | .jnm target => [0xB800#16, target]
  | .jal lnk disp => [0xE000#16 ||| placeReg lnk 0, disp]
  | .jr lnk => [0xC000#16 ||| placeReg lnk 0]

/-- The row of the op-code map an instruction belongs to. -/
def Instr.op : Instr → Op
  | .li _ _ => .li
  | .lr _ _ => .lr
  | .lx _ _ _ _ => .lx
  | .ldn _ _ _ _ => .ldn
  | .stx _ _ _ => .stx
  | .sdn _ _ _ => .sdn
  | .addi _ _ => .addi
  | .addr _ _ => .addr
  | .addx _ _ _ _ => .addx
  | .addn _ _ _ _ => .addn
  | .subi _ _ => .subi
  | .subr _ _ => .subr
  | .subx _ _ _ _ => .subx
  | .subn _ _ _ _ => .subn
  | .andi _ _ => .andi
  | .andr _ _ => .andr
  | .andx _ _ _ _ => .andx
  | .andn _ _ _ _ => .andn
  | .ori _ _ => .ori
  | .orr _ _ => .orr
  | .orx _ _ _ _ => .orx
  | .orn _ _ _ _ => .orn
  | .cmp _ => .cmp
  | .j _ => .j
  | .jz _ => .jz
  | .jnz _ => .jnz
  | .jc _ => .jc
  | .jnc _ => .jnc
  | .jm _ => .jm
  | .jnm _ => .jnm
  | .jal _ _ => .jal
  | .jr _ => .jr

/-- The two words that `w` stands for when its bits are numbered from the least significant bit of the first word on,
with every bit from `nbits` up 0. -/
def tableWords (nbits w : Nat) : Word × Word :=
  (BitVec.ofNat 16 (w % 2 ^ nbits), BitVec.ofNat 16 (w % 2 ^ nbits / 65536))

/-- The instruction the decoder reads from an instruction whose bits are `w`, under the spec's default parameters. -/
def decodeTableWord (nbits w : Nat) : Option Instr :=
  match decode Config.default [(tableWords nbits w).1, (tableWords nbits w).2] with
  | .ok (i, _) => some i
  | .error _ => none

end Sys2Proof
end

