-- ==== Sys2Proof/Machine/Fetch.lean ====
section
/-! DEFINITION. The fetch phase of the instruction cycle (R13), the end of a run (R169), and placing words for a fetch. -/

namespace Sys2Proof.Machine

/-- The run is over: `pc = HALT_PC` at the start of an instruction cycle (R169). Never so without a HALT_PC (log 5). -/
def State.halted (s : State) : Bool :=
  s.cfg.haltPc == some s.pc

/-- How a rejection by the decoder stops the step, at the address of the instruction word (R57, R60, R146). The decoder's
other two rejections cannot arise in a fetch, which reads the words the row asks for. -/
def decodeStop (a iw : Word) : DecodeError → Stop
  | .reserved _ => .fault (.illegalInstruction a iw)
  | .unusedFieldBits _ => .refusal (.unusedFieldBits a iw)
  | .noWord => .fault (.illegalInstruction a iw)
  | .noSecondWord _ => .fault (.illegalInstruction a iw)

/-- Fetch and decode (R13): read the instruction word at `pc`; a reserved word stops before any second word is read
(R146); then read the second word at `pc + 1` if the row has one. The second word is the first access of the execute
phase of each two-word instruction, so reading it here keeps the order of R39 and R150 (log 13). The state is the one
after the reads, with `pc` still at the instruction word. -/
def State.fetch (s : State) : Except Stop (Instr × State) :=
  match s.memRead s.pc with
  | .error stop => .error stop
  | .ok iw =>
    match decodeFirst s.cfg iw with
    | .error e => .error (decodeStop s.pc iw e)
    | .ok row =>
      if row.words = 1 then .ok (assemble s.cfg row.op iw 0x0000#16, s.afterRead s.pc)
      else
        match (s.afterRead s.pc).memRead (s.pc + 1#16) with
        | .error stop => .error stop
        | .ok w2 => .ok (assemble s.cfg row.op iw w2, (s.afterRead s.pc).afterRead (s.pc + 1#16))

/-- `s` with the words `ws` placed in memory from `pc` on. -/
def State.placeAtPc (s : State) (ws : List Word) : State :=
  s.setMem (Memory.load s.mem s.pc ws)

end Sys2Proof.Machine
end

