-- ==== Sys2Proof/Machine/Step.lean ====
section
/-! DEFINITION. One instruction cycle (R13). -/

namespace Sys2Proof.Machine

/-- One instruction cycle (R13): fetch and decode at `pc`, then execute with `pc` past the instruction word (R7). A state
whose run is over stays as it is, as the machine does in the jump to itself that stands at HALT_PC (R169, log 5). -/
def step (s : State) : Host.Outcome State Fault Refusal :=
  if s.halted then .next s
  else
    match s.fetch with
    | .ok (i, t) => exec i t.nextWord
    | .error stop => stop.result

/-- `s` with the instruction whose bits are `w` stored at `pc`: its first word at `pc` and its second at `pc + 1`, every
bit from `nbits` up 0. It stands for the host's loading of a program (R166, log 27). -/
def State.withFetchWord (s : State) (nbits w : Nat) : State :=
  s.placeAtPc [(tableWords nbits w).1, (tableWords nbits w).2]

end Sys2Proof.Machine
end

