-- ==== Sys2Proof/Machine/Accesses.lean ====
section
/-! DEFINITION. The memory accesses of one instruction cycle, in order (R39). `step` does not consult this list: it is the
rule's own table, and obligations say that `step` stops at the first access of it that fails, writes nothing but its
write, and reads nothing but its reads, and that a device sees exactly those that are made there (log 24). -/

namespace Sys2Proof.Machine

/-- How an access stops the step, if it does (R147, R148). -/
def Access.stop (s : State) : Access → Option Stop
  | .read a =>
    match s.memRead a with
    | .ok _ => none
    | .error stop => some stop
  | .write a _ => mapStop s.cfg a .write

/-- The accesses that follow a read of a pointer word at `a`, if that read goes on. -/
def State.afterPointer (s : State) (a : Word) (next : Word → Access) : List Access :=
  match s.memRead a with
  | .ok ptr => [next ptr]
  | .error _ => []

/-- The data accesses of an operand form (R39, R53). -/
def State.operandAccesses (s : State) : Operand → List Access
  | .immediate _ => []
  | .register _ => []
  | .indexed disp src1 src2 => [.read (s.effAddr disp src1 src2)]
  | .indirect disp src1 src2 =>
    .read (s.effAddr disp src1 src2) :: s.afterPointer (s.effAddr disp src1 src2) .read

/-- The data accesses of an instruction after its own words are read (R39). -/
def State.dataAccesses (s : State) : Instr → List Access
  | .lx _ disp src1 src2 => s.operandAccesses (.indexed disp src1 src2)
  | .ldn _ disp src1 src2 => s.operandAccesses (.indirect disp src1 src2)
  | .stx disp dst1 src => [.write (s.storeAddr disp dst1) (s.reg src)]
  | .sdn disp dst1 src =>
    .read (s.storeAddr disp dst1) :: s.afterPointer (s.storeAddr disp dst1) fun ptr => .write ptr (s.reg src)
  | .addx _ disp src1 src2 => s.operandAccesses (.indexed disp src1 src2)
  | .addn _ disp src1 src2 => s.operandAccesses (.indirect disp src1 src2)
  | .subx _ disp src1 src2 => s.operandAccesses (.indexed disp src1 src2)
  | .subn _ disp src1 src2 => s.operandAccesses (.indirect disp src1 src2)
  | .andx _ disp src1 src2 => s.operandAccesses (.indexed disp src1 src2)
  | .andn _ disp src1 src2 => s.operandAccesses (.indirect disp src1 src2)
  | .orx _ disp src1 src2 => s.operandAccesses (.indexed disp src1 src2)
  | .orn _ disp src1 src2 => s.operandAccesses (.indirect disp src1 src2)
  | .jr lnk => [.read (s.reg lnk)]
  | .li _ _ => []
  | .lr _ _ => []
  | .addi _ _ => []
  | .addr _ _ => []
  | .subi _ _ => []
  | .subr _ _ => []
  | .andi _ _ => []
  | .andr _ _ => []
  | .ori _ _ => []
  | .orr _ _ => []
  | .cmp _ => []
  | .j _ => []
  | .jz _ => []
  | .jnz _ => []
  | .jc _ => []
  | .jnc _ => []
  | .jm _ => []
  | .jnm _ => []
  | .jal _ _ => []

/-- The reads of the instruction's own words: its first word at `pc`, and the second at `pc + 1` for a two-word row
(R39, R55). A word that is no instruction has no second word (R60). -/
def State.fetchAccesses (s : State) : List Access :=
  .read s.pc ::
    match s.memRead s.pc with
    | .error _ => []
    | .ok iw =>
      match decodeFirst s.cfg iw with
      | .error _ => []
      | .ok row => if row.words = 1 then [] else [.read (s.pc + 1#16)]

/-- All the accesses of the cycle that starts at `s`, in order (R39); none when the run is over (R169). -/
def State.accesses (s : State) : List Access :=
  if s.halted then []
  else
    match s.fetch with
    | .error _ => s.fetchAccesses
    | .ok (i, t) => s.fetchAccesses ++ t.dataAccesses i

end Sys2Proof.Machine
end

