-- ==== Sys2Proof/Safety.lean ====
section
/-! DEFINITION. The terms in which claims speak of steps and runs: what a step leaves unchanged, which state is
well-formed, which states a run reaches, which state is a launch. -/

namespace Sys2Proof.Machine

/-! ### Outcomes -/

/-- The next state, if the outcome is one. -/
def nextOf : Result → Option State
  | .next t => some t
  | .fault _ => none
  | .refused _ => none

/-- The fault, if the outcome is one. -/
def faultOf : Result → Option Fault
  | .next _ => none
  | .fault f => some f
  | .refused _ => none

/-- The refusal, if the outcome is one. -/
def refusalOf : Result → Option Refusal
  | .next _ => none
  | .fault _ => none
  | .refused r => some r

/-! ### Frames -/

/-- No general register differs. -/
def RegsKept (s t : State) : Prop := ∀ r : Reg, t.reg r = s.reg r

/-- `x[dst]` is `v` after, and no other general register differs. -/
def RegWritten (s t : State) (dst : Reg) (v : Word) : Prop :=
  t.reg dst = v ∧ ∀ r : Reg, r ≠ dst → t.reg r = s.reg r

/-- No flag differs. -/
def FlagsKept (s t : State) : Prop :=
  t.flagZ = s.flagZ ∧ t.flagC = s.flagC ∧ t.flagM = s.flagM

/-- The three flags are `f` after. -/
def FlagsWritten (t : State) (f : Flags) : Prop :=
  t.flagZ = f.z ∧ t.flagC = f.c ∧ t.flagM = f.m

/-- No byte of memory differs. -/
def MemKept (s t : State) : Prop :=
  ∀ c : Nat, Memory.byteAt t.mem c = Memory.byteAt s.mem c

/-- The word at `a` is `v` after, and no byte outside that word differs. -/
def WordStored (s t : State) (a v : Word) : Prop :=
  Memory.wordAt t.mem a = some v ∧
    ∀ c : Nat, c ≠ lowCell a → c ≠ highCell a → Memory.byteAt t.mem c = Memory.byteAt s.mem c

/-- Whether an access goes to a platform device. -/
def Access.atDevice (cfg : Config) : Access → Bool
  | .read a => onDevice cfg a
  | .write a _ => onDevice cfg a

/-- Of the accesses `accs`, devices have seen exactly those made at a device, in order, and nothing else (R36). -/
def DevicesSee (s t : State) (accs : List Access) : Prop :=
  t.deviceSeen = s.deviceSeen ++ accs.filter (Access.atDevice s.cfg)

/-- The parameters are the same. -/
def ParamsKept (s t : State) : Prop := t.cfg = s.cfg

/-- What a load leaves: `x[dst] = v`, the pc at `pc'`, and all other architectural state as before. -/
def LoadEffect (s t : State) (dst : Reg) (v pc' : Word) : Prop :=
  RegWritten s t dst v ∧ t.pc = pc' ∧ FlagsKept s t ∧ MemKept s t ∧ ParamsKept s t

/-- What a store leaves: word `a` is `v`, or memory as before where `a` is a device's, the pc at `pc'`, and all other
architectural state as before. -/
def StoreEffect (s t : State) (a v pc' : Word) : Prop :=
  (if onDevice s.cfg a then MemKept s t else WordStored s t a v) ∧ t.pc = pc' ∧ RegsKept s t ∧ FlagsKept s t ∧ ParamsKept s t

/-- What a two-operand instruction of class 01 leaves, on operands `a` and `b` with result `r`: `x[dst] = r`, the flags
that FLAG_RULE gives, the pc at `pc'`, and all other architectural state as before. -/
def AluEffect (s t : State) (op : AluOp) (dst : Reg) (a b r pc' : Word) : Prop :=
  RegWritten s t dst r ∧ FlagsWritten t (flagRule s.cfg s.flags op a b r) ∧ t.pc = pc' ∧ MemKept s t ∧ ParamsKept s t

/-- What a jump leaves: the pc at `pc'`, and all other architectural state as before. -/
def JumpEffect (s t : State) (pc' : Word) : Prop :=
  t.pc = pc' ∧ RegsKept s t ∧ FlagsKept s t ∧ MemKept s t ∧ ParamsKept s t

/-! ### What the spec's tables say of an instruction -/

/-- The register an instruction writes, if any (the table of R11). -/
def writtenReg : Instr → Option Reg
  | .li dst _ | .lr dst _ | .lx dst _ _ _ | .ldn dst _ _ _ => some dst
  | .addi dst _ | .addr dst _ | .addx dst _ _ _ | .addn dst _ _ _ => some dst
  | .subi dst _ | .subr dst _ | .subx dst _ _ _ | .subn dst _ _ _ => some dst
  | .andi dst _ | .andr dst _ | .andx dst _ _ _ | .andn dst _ _ _ => some dst
  | .ori dst _ | .orr dst _ | .orx dst _ _ _ | .orn dst _ _ _ => some dst
  | .jal lnk _ => some lnk
  | .stx _ _ _ | .sdn _ _ _ | .cmp _ | .jr _ => none
  | .j _ | .jz _ | .jnz _ | .jc _ | .jnc _ | .jm _ | .jnm _ => none

/-- The registers an instruction reads (the table of R11). -/
def readRegs : Instr → List Reg
  | .li _ _ | .jal _ _ => []
  | .j _ | .jz _ | .jnz _ | .jc _ | .jnc _ | .jm _ | .jnm _ => []
  | .lr _ src1 => [src1]
  | .lx _ _ src1 src2 | .ldn _ _ src1 src2 => [src1, src2]
  | .stx _ dst1 src | .sdn _ dst1 src => [dst1, src]
  | .addi dst _ | .subi dst _ | .andi dst _ | .ori dst _ => [dst]
  | .addr dst src1 | .subr dst src1 | .andr dst src1 | .orr dst src1 => [dst, src1]
  | .addx dst _ src1 src2 | .addn dst _ src1 src2 => [dst, src1, src2]
  | .subx dst _ src1 src2 | .subn dst _ src1 src2 => [dst, src1, src2]
  | .andx dst _ src1 src2 | .andn dst _ src1 src2 => [dst, src1, src2]
  | .orx dst _ src1 src2 | .orn dst _ src1 src2 => [dst, src1, src2]
  | .cmp reg => [reg]
  | .jr lnk => [lnk]

/-- The instructions of class 01, the op-code whose instructions write the flags (R18). -/
def isClass01 : Instr → Bool
  | .addi _ _ | .addr _ _ | .addx _ _ _ _ | .addn _ _ _ _ => true
  | .subi _ _ | .subr _ _ | .subx _ _ _ _ | .subn _ _ _ _ => true
  | .andi _ _ | .andr _ _ | .andx _ _ _ _ | .andn _ _ _ _ => true
  | .ori _ _ | .orr _ _ | .orx _ _ _ _ | .orn _ _ _ _ => true
  | .cmp _ => true
  | .li _ _ | .lr _ _ | .lx _ _ _ _ | .ldn _ _ _ _ | .stx _ _ _ | .sdn _ _ _ => false
  | .j _ | .jz _ | .jnz _ | .jc _ | .jnc _ | .jm _ | .jnm _ => false
  | .jal _ _ | .jr _ => false

/-- The two states agree on the flag the instruction tests, if it tests one (R17). -/
def sameTestedFlag (i : Instr) (s t : State) : Prop :=
  match i with
  | .jz _ | .jnz _ => t.flagZ = s.flagZ
  | .jc _ | .jnc _ => t.flagC = s.flagC
  | .jm _ | .jnm _ => t.flagM = s.flagM
  | .li _ _ | .lr _ _ | .lx _ _ _ _ | .ldn _ _ _ _ | .stx _ _ _ | .sdn _ _ _ => True
  | .addi _ _ | .addr _ _ | .addx _ _ _ _ | .addn _ _ _ _ => True
  | .subi _ _ | .subr _ _ | .subx _ _ _ _ | .subn _ _ _ _ => True
  | .andi _ _ | .andr _ _ | .andx _ _ _ _ | .andn _ _ _ _ => True
  | .ori _ _ | .orr _ _ | .orx _ _ _ _ | .orn _ _ _ _ => True
  | .cmp _ | .j _ | .jal _ _ | .jr _ => True

/-- The sixteen two-operand instructions of class 01: the operation, the destination and the second operand (R53, R90). -/
def aluForm : Instr → Option (AluOp × Reg × Operand)
  | .addi dst imm => some (.add, dst, .immediate imm)
  | .addr dst src1 => some (.add, dst, .register src1)
  | .addx dst disp src1 src2 => some (.add, dst, .indexed disp src1 src2)
  | .addn dst disp src1 src2 => some (.add, dst, .indirect disp src1 src2)
  | .subi dst imm => some (.sub, dst, .immediate imm)
  | .subr dst src1 => some (.sub, dst, .register src1)
  | .subx dst disp src1 src2 => some (.sub, dst, .indexed disp src1 src2)
  | .subn dst disp src1 src2 => some (.sub, dst, .indirect disp src1 src2)
  | .andi dst imm => some (.and, dst, .immediate imm)
  | .andr dst src1 => some (.and, dst, .register src1)
  | .andx dst disp src1 src2 => some (.and, dst, .indexed disp src1 src2)
  | .andn dst disp src1 src2 => some (.and, dst, .indirect disp src1 src2)
  | .ori dst imm => some (.or, dst, .immediate imm)
  | .orr dst src1 => some (.or, dst, .register src1)
  | .orx dst disp src1 src2 => some (.or, dst, .indexed disp src1 src2)
  | .orn dst disp src1 src2 => some (.or, dst, .indirect disp src1 src2)
  | .cmp _ => none
  | .li _ _ | .lr _ _ | .lx _ _ _ _ | .ldn _ _ _ _ | .stx _ _ _ | .sdn _ _ _ => none
  | .j _ | .jz _ | .jnz _ | .jc _ | .jnc _ | .jm _ | .jnm _ => none
  | .jal _ _ | .jr _ => none

/-- The four loads: the destination and the operand (R53, R71 to R74). -/
def loadForm : Instr → Option (Reg × Operand)
  | .li dst imm => some (dst, .immediate imm)
  | .lr dst src1 => some (dst, .register src1)
  | .lx dst disp src1 src2 => some (dst, .indexed disp src1 src2)
  | .ldn dst disp src1 src2 => some (dst, .indirect disp src1 src2)
  | .stx _ _ _ | .sdn _ _ _ => none
  | .addi _ _ | .addr _ _ | .addx _ _ _ _ | .addn _ _ _ _ => none
  | .subi _ _ | .subr _ _ | .subx _ _ _ _ | .subn _ _ _ _ => none
  | .andi _ _ | .andr _ _ | .andx _ _ _ _ | .andn _ _ _ _ => none
  | .ori _ _ | .orr _ _ | .orx _ _ _ _ | .orn _ _ _ _ => none
  | .cmp _ => none
  | .j _ | .jz _ | .jnz _ | .jc _ | .jnc _ | .jm _ | .jnm _ => none
  | .jal _ _ | .jr _ => none

/-- `v` is the value of an operand at `s`: each read that its form makes goes on, and the last gives `v` (R53). -/
def OperandIs (s : State) (o : Operand) (v : Word) : Prop :=
  match o with
  | .immediate imm => v = imm
  | .register src1 => v = s.reg src1
  | .indexed disp src1 src2 => s.memRead (s.effAddr disp src1 src2) = .ok v
  | .indirect disp src1 src2 =>
    ∃ ptr, s.memRead (s.effAddr disp src1 src2) = .ok ptr ∧
      (s.afterRead (s.effAddr disp src1 src2)).memRead ptr = .ok v

/-- The instructions that may take the pc elsewhere than past their own words: classes 10 and 11 (R14). -/
def isTransfer : Instr → Bool
  | .j _ | .jz _ | .jnz _ | .jc _ | .jnc _ | .jm _ | .jnm _ => true
  | .jal _ _ | .jr _ => true
  | .li _ _ | .lr _ _ | .lx _ _ _ _ | .ldn _ _ _ _ | .stx _ _ _ | .sdn _ _ _ => false
  | .addi _ _ | .addr _ _ | .addx _ _ _ _ | .addn _ _ _ _ => false
  | .subi _ _ | .subr _ _ | .subx _ _ _ _ | .subn _ _ _ _ => false
  | .andi _ _ | .andr _ _ | .andx _ _ _ _ | .andn _ _ _ _ => false
  | .ori _ _ | .orr _ _ | .orx _ _ _ _ | .orn _ _ _ _ => false
  | .cmp _ => false

/-- Whether an access is a read. -/
def Access.isRead : Access → Bool
  | .read _ => true
  | .write _ _ => false

/-- The accesses R39's table gives an instruction whose words stand at `A` and, where it has two, at `A + 1`, `s` being
the state after those are read, for an `s` in which the pointer it follows can be read. -/
def ruleAccesses (s : State) (A : Word) (i : Instr) (accs : List Access) : Prop :=
  match i with
  | .lr _ _ | .addr _ _ | .subr _ _ | .andr _ _ | .orr _ _ | .cmp _ => accs = [.read A]
  | .li _ _ | .addi _ _ | .subi _ _ | .andi _ _ | .ori _ _ => accs = [.read A, .read (A + 1#16)]
  | .lx _ d a b | .addx _ d a b | .subx _ d a b | .andx _ d a b | .orx _ d a b =>
    accs = [.read A, .read (A + 1#16), .read (s.effAddr d a b)]
  | .ldn _ d a b | .addn _ d a b | .subn _ d a b | .andn _ d a b | .orn _ d a b =>
    ∀ ptr, s.memRead (s.effAddr d a b) = .ok ptr →
      accs = [.read A, .read (A + 1#16), .read (s.effAddr d a b), .read ptr]
  | .stx d a b => accs = [.read A, .read (A + 1#16), .write (s.storeAddr d a) (s.reg b)]
  | .sdn d a b =>
    ∀ ptr, s.memRead (s.storeAddr d a) = .ok ptr →
      accs = [.read A, .read (A + 1#16), .read (s.storeAddr d a), .write ptr (s.reg b)]
  | .j _ | .jz _ | .jnz _ | .jc _ | .jnc _ | .jm _ | .jnm _ => accs = [.read A, .read (A + 1#16)]
  | .jal _ _ => accs = [.read A, .read (A + 1#16)]
  | .jr lnk => accs = [.read A, .read (s.reg lnk)]

/-- Two outcomes are the same but for the flags of a next state. -/
def SameButFlags : Result → Result → Prop
  | .next s, .next t => t.regs = s.regs ∧ t.pc = s.pc ∧ t.mem = s.mem ∧ t.deviceSeen = s.deviceSeen ∧ t.cfg = s.cfg
  | .fault f, .fault g => g = f
  | .refused p, .refused q => q = p
  | _, _ => False

/-- Two outcomes are the same but for the memory of a next state. -/
def SameButMem : Result → Result → Prop
  | .next s, .next t =>
    t.regs = s.regs ∧ t.pc = s.pc ∧ t.flagZ = s.flagZ ∧ t.flagC = s.flagC ∧ t.flagM = s.flagM ∧
      t.deviceSeen = s.deviceSeen ∧ t.cfg = s.cfg
  | .fault f, .fault g => g = f
  | .refused p, .refused q => q = p
  | _, _ => False

/-- The outcome with register `r` of a next state set to `v`. -/
def withReg (r : Reg) (v : Word) : Result → Result
  | .next t => .next (t.setReg r v)
  | .fault f => .fault f
  | .refused q => .refused q

/-- The outcome with the flags of a next state set to `f`. -/
def withNewFlags (f : Flags) : Result → Result
  | .next t => .next (t.setFlags f)
  | .fault g => .fault g
  | .refused q => .refused q

/-! ### The fields of a class 01 word, as they are drawn -/

/-- The second operand that the field `add`, bits 7:6, selects (R51, R53), read from the word and not by the decoder. -/
def drawnOperand (iw w2 : Word) : Operand :=
  match iw.toNat / 64 % 4 with
  | 0 => .immediate w2
  | 1 => .register (regField iw 3)
  | 2 => .indexed w2 (regField iw 3) (regField iw 0)
  | _ => .indirect w2 (regField iw 3) (regField iw 0)

/-- The two-operand operation that the field `alu`, bits 13:11, selects in class 01 (R51, R59), read from the word and
not by the decoder. -/
def drawnAluOp (iw : Word) : Option AluOp :=
  match iw.toNat / 2048 with
  | 8 => some .add
  | 9 => some .sub
  | 10 => some .and
  | 11 => some .or
  | _ => none

/-! ### Invariant, runs, launch -/

/-- The invariant of the model: memory in its canonical form and a well-formed MEM_MAP. -/
def State.Inv (s : State) : Prop := Memory.wf s.mem ∧ s.cfg.wf = true

/-- Every word of memory was loaded or written. -/
def State.AllDefined (s : State) : Prop := ∀ a : Word, (Memory.wordAt s.mem a).isSome = true

/-- `t` is the state after one instruction cycle of `s`. -/
def State.Steps (s t : State) : Prop := step s = .next t

/-- `t` is a state of the run that starts at `s`. -/
def State.Reaches (s t : State) : Prop := Relation.ReflTransGen State.Steps s t

/-- A launch of the machine (R22, R165): the pc at RESET_PC and the loaded image, with registers and flags of any value,
as the spec leaves them unspecified, and devices of any history. `State.reset` is one such state. -/
def State.Launched (cfg : Config) (image : Memory) (s : State) : Prop :=
  s.cfg = cfg ∧ s.pc = cfg.resetPc ∧ s.mem = image

end Sys2Proof.Machine
end

