-- ==== Sys2Proof/Certificates/Slice0/Obligations.lean ====
section
/-! DEFINITION. The statements about the machine, for the provers. A docstring names the rule of spec/ a statement
formalises, or, where it rests on a decision that the spec marks as its own, that decision. -/

open Sys2Proof Sys2Proof.Machine

/-! ### Encoding -/

/-- Decoding the words the encoder writes for an instruction gives that instruction and leaves the words after it, for
every instruction, every operand and every setting of the parameters (R57, R58). -/
def Obligations.DecodeOfEncodeIsTheInstruction : Prop :=
  ∀ (cfg : Config) (i : Instr) (rest : List Word), decode cfg (encode cfg i ++ rest) = .ok (i, rest)

/-- The other way: the encoding of a decoded instruction is the words it was read from, with the unused bits of the
first word cleared (R57, R58). So no bit that is not unused is dropped. -/
def Obligations.EncodeOfDecodeClearsOnlyUnusedBits : Prop :=
  ∀ (cfg : Config) (ws : List Word) (i : Instr) (rest : List Word), decode cfg ws = .ok (i, rest) →
    ∃ iw row tail, ws = iw :: (tail ++ rest) ∧ findRow iw = some row ∧ tail.length + 1 = row.words ∧
      encode cfg i = (iw &&& ~~~unusedBits cfg row) :: tail

/-- A first word selects the row of the op-code map whose masked bits it has, and no two rows can both be selected
(R58; that `jr` is the row with `t = 0` is the spec's decision D9). -/
def Obligations.FirstWordSelectsItsOpcodeRow : Prop :=
  (∀ (iw : Word) (row : OpRow), row ∈ opTable → (findRow iw = some row ↔ iw &&& row.mask = row.value)) ∧
    ∀ (iw : Word) (row row' : OpRow), row ∈ opTable → row' ∈ opTable →
      iw &&& row.mask = row.value → iw &&& row'.mask = row'.value → row = row'

/-- The words no row selects are exactly the blocks R60 lists as reserved (the spec's decision D15). -/
def Obligations.UnselectedWordsAreExactlyTheReserved : Prop :=
  ∀ iw : Word, findRow iw = none ↔ iw.reserved = true

/-- Under UNUSED_FIELD_POLICY = ignore, a list of words is one whole instruction to the decoder exactly when its first
word is not reserved and it has the length R55 reads from the first word (R55, R60; decisions D10, D15). That a word
0xC000 to 0xDFFF is an instruction of one word and one 0xE000 to 0xFFFF of two is decision D9 (log 18). -/
def Obligations.WordsDecodeExactlyWhenWellFormed : Prop :=
  ∀ (cfg : Config) (ws : List Word), cfg.unusedFields = .ignore →
    ((∃ i, decode cfg ws = .ok (i, [])) ↔ Encoded.wf ws = true)

/-- Under UNUSED_FIELD_POLICY = ignore, two first words that differ in unused bits only decode to the same instruction
(R57; decision D10). -/
def Obligations.UnusedBitsDoNotMatter : Prop :=
  ∀ (cfg : Config) (iw iw' w2 : Word) (row : OpRow), cfg.unusedFields = .ignore → findRow iw = some row →
    iw' &&& ~~~unusedBits cfg row = iw &&& ~~~unusedBits cfg row →
      decode cfg [iw', w2] = decode cfg [iw, w2]

/-- The register fields are bits 10:8, 5:3 and 2:0 of the first word, read as unsigned numbers (R51, R54). -/
def Obligations.RegisterFieldsAreTheDrawnBits : Prop :=
  ∀ iw : Word, (regField iw 8).val = iw.toNat / 256 % 8 ∧ (regField iw 3).val = iw.toNat / 8 % 8 ∧
    (regField iw 0).val = iw.toNat % 8

/-- Words written out from the encodings of the spec decode to the instructions they stand for: one of each format, and
a reserved word is rejected (decode vectors of 95_test_vectors.md 2.8 and the examples of the instructions). Four of
them rest on decisions of the spec: `0xE007` and `0xC006` on D9 (the t bit, log 18), `0x1288` on D11 (the field of the
stored register, log 19), and that `0x1000` is rejected on D15 (log 12). -/
def Obligations.SpecWordsDecode : Prop :=
  decode Config.default [0x0B8A#16, 0x000A#16] = .ok (.lx 3 0x000A#16 1 2, []) ∧
    decode Config.default [0x0A48#16] = .ok (.lr 2 1, []) ∧
    decode Config.default [0x1288#16, 0xFFFB#16] = .ok (.stx 0xFFFB#16 1 2, []) ∧
    decode Config.default [0x4993#16, 0x000A#16] = .ok (.subx 1 0x000A#16 2 3, []) ∧
    decode Config.default [0x6003#16] = .ok (.cmp 3, []) ∧
    decode Config.default [0x9000#16, 0x0100#16] = .ok (.jz 0x0100#16, []) ∧
    decode Config.default [0xE007#16, 0x0064#16] = .ok (.jal 7 0x0064#16, []) ∧
    decode Config.default [0xC006#16] = .ok (.jr 6, []) ∧
    decode Config.default [0x1000#16] = .error (.reserved 0x1000#16)

/-! ### The instruction cycle -/

/-- When the words at the pc decode to an instruction, the step is that instruction's execute phase, started with the pc
one past the first word (R7, R13; the fetch phase is decision D5), in the state after the words are read, which differs
from the state before only where they stand in a device's window (R36, log 28). -/
def Obligations.StepRunsTheDecodedInstruction : Prop :=
  ∀ s : State, s.halted = false →
    (∀ iw i, s.memRead s.pc = .ok iw → decode s.cfg [iw] = .ok (i, []) →
      step s = exec i ((s.afterRead s.pc).setPc (s.pc + 1#16))) ∧
    ∀ iw w2 i, s.memRead s.pc = .ok iw → (s.afterRead s.pc).memRead (s.pc + 1#16) = .ok w2 →
      decode s.cfg [iw, w2] = .ok (i, []) →
        step s = exec i (((s.afterRead s.pc).afterRead (s.pc + 1#16)).setPc (s.pc + 1#16))

/-- A reserved word at the pc ends the step in IllegalInstruction with its address and the word, whatever stands after
it (R146; decision D15). -/
def Obligations.StepOnReservedWordFaults : Prop :=
  ∀ (s : State) (iw : Word), s.halted = false → s.memRead s.pc = .ok iw → iw.reserved = true →
    step s = .fault (.illegalInstruction s.pc iw)

/-- Under UNUSED_FIELD_POLICY = refuse, a first word whose unused bits are neither all 0 nor all 1 is not run (R57;
decision D10). -/
def Obligations.StepOnUnusedBitsRefuses : Prop :=
  ∀ (s : State) (iw : Word) (row : OpRow), s.halted = false → s.cfg.unusedFields = .refuse →
    s.memRead s.pc = .ok iw → findRow iw = some row → iw &&& unusedBits s.cfg row ≠ 0x0000#16 →
    iw &&& unusedBits s.cfg row ≠ unusedBits s.cfg row →
      step s = .refused (.unusedFieldBits s.pc iw)

/-- A loaded instruction runs: with words placed at the pc that decode to an instruction, on a machine whose memory is
all read/write and whose run is not over, the next step is that instruction's execute phase (R13, R166; log 27). -/
def Obligations.PlacedInstructionRunsNext : Prop :=
  ∀ (s : State) (nbits w : Nat) (i : Instr) (rest : List Word), s.halted = false → s.cfg.memMap = [] →
    decode s.cfg [(tableWords nbits w).1, (tableWords nbits w).2] = .ok (i, rest) →
      step (s.withFetchWord nbits w) = exec i (s.withFetchWord nbits w).nextWord

/-- A run is over when the pc is HALT_PC: the state repeats and nothing is fetched; a machine without a HALT_PC is never
there (R169, decision D20; that the model's step repeats the state is log 5). -/
def Obligations.RunEndsAtHaltPc : Prop :=
  (∀ s : State, s.cfg.haltPc = some s.pc → step s = .next s ∧ s.accesses = []) ∧
    ∀ s : State, s.cfg.haltPc = none → s.halted = false

/-- `j` to its own address, in memory, changes no state, for ever: it is how a program stops (R121, R169). In a device's
window the device would see each fetch. -/
def Obligations.JumpToItselfRepeats : Prop :=
  ∀ s t : State, onDevice s.cfg s.pc = false → onDevice s.cfg (s.pc + 1#16) = false → s.memRead s.pc = .ok 0x8800#16 →
    s.memRead (s.pc + 1#16) = .ok s.pc → s.Reaches t → t = s

/-! ### Memory -/

/-- A read of memory changes nothing, and a read after a write gives the written word at its address and the old word at
every other, the write changing nothing but that word (R32). A device's window is not memory (R36): an access there is
the next statement's. -/
def Obligations.MemReadAfterMemWrite : Prop :=
  (∀ (s : State) (a : Word), onDevice s.cfg a = false → s.afterRead a = s) ∧
  ∀ (s t : State) (a v : Word), onDevice s.cfg a = false → s.memWrite a v = .ok t →
    t.memRead a = .ok v ∧ (∀ b, b ≠ a → t.memRead b = s.memRead b) ∧ WordStored s t a v ∧
      t.pc = s.pc ∧ RegsKept s t ∧ FlagsKept s t ∧ ParamsKept s t

/-- MEM_MAP decides each access: BusFault at an unbacked address and for a write to read-only memory; at a device's window
the access goes on, changes no architectural state, and is seen by the device; otherwise memory decides (R36, R37, R147;
decision D24). That a device's answer is a free value and that a write there changes no word of memory is the model's
choice, log 28. -/
def Obligations.MapDecidesEachAccess : Prop :=
  ∀ (s : State) (a v : Word),
    (regionKind s.cfg a = .unbacked →
      s.memRead a = .error (.fault (.busFault a .read)) ∧ s.memWrite a v = .error (.fault (.busFault a .write))) ∧
    (regionKind s.cfg a = .readOnly →
      (s.memRead a = .ok v ↔ Memory.wordAt s.mem a = some v) ∧
        s.memWrite a v = .error (.fault (.busFault a .write))) ∧
    (regionKind s.cfg a = .device →
      (∃ w, s.memRead a = .ok w) ∧ ∃ t, s.memWrite a v = .ok t ∧ t.pc = s.pc ∧ RegsKept s t ∧ FlagsKept s t ∧
        MemKept s t ∧ ParamsKept s t ∧ DevicesSee s t [.write a v]) ∧
    (regionKind s.cfg a = .readWrite →
      (s.memRead a = .ok v ↔ Memory.wordAt s.mem a = some v) ∧ ∃ t, s.memWrite a v = .ok t)

/-- A read changes no architectural state, at a device or not, and a device sees it (R32, R36; decision D24, log 28). -/
def Obligations.ReadsChangeOnlyWhatDevicesSee : Prop :=
  ∀ (s : State) (a : Word), (s.afterRead a).pc = s.pc ∧ RegsKept s (s.afterRead a) ∧ FlagsKept s (s.afterRead a) ∧
    MemKept s (s.afterRead a) ∧ ParamsKept s (s.afterRead a) ∧ DevicesSee s (s.afterRead a) [.read a]

/-- A well-formed MEM_MAP says one thing of each address: the kind of the one region that covers it, and read/write
memory where none does (R37; decision D24). -/
def Obligations.WellFormedMapSaysOneThing : Prop :=
  ∀ (cfg : Config) (a : Word), cfg.wf = true →
    (∀ r ∈ cfg.memMap, r.base ≤ a.toNat → a.toNat < r.base + r.size → regionKind cfg a = r.kind) ∧
      ((∀ r ∈ cfg.memMap, a.toNat < r.base ∨ r.base + r.size ≤ a.toNat) → regionKind cfg a = .readWrite)

/-- Reading a memory word that was neither loaded nor written, at an address MEM_MAP lets be read, is the fault
UninitialisedRead with that address (R148; decision D19). -/
def Obligations.UndefinedWordReadFaults : Prop :=
  ∀ (s : State) (a : Word), regionKind s.cfg a = .readWrite ∨ regionKind s.cfg a = .readOnly →
    Memory.wordAt s.mem a = none → s.memRead a = .error (.fault (.uninitialisedRead a))

/-! ### Class 00 -/

/-- `li` and `lr` (R71, R72): which first words they are, and that they always complete, writing the second word or the
source register to the destination, with nothing else changed but the pc. -/
def Obligations.LoadImmediateAndRegister : Prop :=
  (∀ (cfg : Config) (iw imm : Word) (rest : List Word), cfg.unusedFields = .ignore → iw &&& 0xF8C0#16 = 0x0800#16 →
    decode cfg (iw :: imm :: rest) = .ok (.li (regField iw 8) imm, rest)) ∧
  (∀ (cfg : Config) (iw : Word) (rest : List Word), cfg.unusedFields = .ignore → iw &&& 0xF8C0#16 = 0x0840#16 →
    decode cfg (iw :: rest) = .ok (.lr (regField iw 8) (regField iw 3), rest)) ∧
  (∀ (dst : Reg) (imm : Word) (s : State), ∃ t, exec (.li dst imm) s = .next t ∧ LoadEffect s t dst imm (s.pc + 1#16)) ∧
  ∀ (dst src1 : Reg) (s : State), ∃ t, exec (.lr dst src1) s = .next t ∧ LoadEffect s t dst (s.reg src1) s.pc

/-- `lx` and `ldn` (R73, R74): which first words they are, and that they complete whenever the words they read can be
read, writing the word at the effective address, or the word it points at, to the destination, with nothing else
changed but the pc. `ldn` makes its second read in the state after the first, which is the same state except at a
device. -/
def Obligations.LoadsFromMemory : Prop :=
  (∀ (cfg : Config) (iw disp : Word) (rest : List Word), cfg.unusedFields = .ignore →
    (iw &&& 0xF8C0#16 = 0x0880#16 → decode cfg (iw :: disp :: rest) =
      .ok (.lx (regField iw 8) disp (regField iw 3) (regField iw 0), rest)) ∧
    (iw &&& 0xF8C0#16 = 0x08C0#16 → decode cfg (iw :: disp :: rest) =
      .ok (.ldn (regField iw 8) disp (regField iw 3) (regField iw 0), rest))) ∧
  (∀ (dst : Reg) (disp : Word) (src1 src2 : Reg) (s : State) (v : Word),
    s.memRead (disp + s.reg src1 + s.reg src2) = .ok v →
      ∃ t, exec (.lx dst disp src1 src2) s = .next t ∧ LoadEffect s t dst v (s.pc + 1#16)) ∧
  ∀ (dst : Reg) (disp : Word) (src1 src2 : Reg) (s : State) (ptr v : Word),
    s.memRead (disp + s.reg src1 + s.reg src2) = .ok ptr →
    (s.afterRead (disp + s.reg src1 + s.reg src2)).memRead ptr = .ok v →
      ∃ t, exec (.ldn dst disp src1 src2) s = .next t ∧ LoadEffect s t dst v (s.pc + 1#16)

/-- `stx` and `sdn` (40_load_store.md section 3; the field of the stored register is decision D11, the write D12): which
first words they are, and that they complete whenever the pointer can be read and the target is read/write memory or a
device's, replacing one word of memory, the one at the store address or the one it points at, or no word where a device
takes the store, and changing nothing else but the pc. That a device sees the store is R36 (decision D24); that the store
completes there and changes no word of memory is the model's choice, log 28. -/
def Obligations.Stores : Prop :=
  (∀ (cfg : Config) (iw disp : Word) (rest : List Word), cfg.unusedFields = .ignore → cfg.storeData = .bits10to8 →
    (iw &&& 0xF8C0#16 = 0x1080#16 → decode cfg (iw :: disp :: rest) =
      .ok (.stx disp (regField iw 3) (regField iw 8), rest)) ∧
    (iw &&& 0xF8C0#16 = 0x10C0#16 → decode cfg (iw :: disp :: rest) =
      .ok (.sdn disp (regField iw 3) (regField iw 8), rest))) ∧
  (∀ (disp : Word) (dst1 src : Reg) (s : State),
    regionKind s.cfg (s.storeAddr disp dst1) = .readWrite ∨ regionKind s.cfg (s.storeAddr disp dst1) = .device →
    ∃ t, exec (.stx disp dst1 src) s = .next t ∧
      StoreEffect s t (s.storeAddr disp dst1) (s.reg src) (s.pc + 1#16)) ∧
  ∀ (disp : Word) (dst1 src : Reg) (s : State) (ptr : Word), s.memRead (s.storeAddr disp dst1) = .ok ptr →
    regionKind s.cfg ptr = .readWrite ∨ regionKind s.cfg ptr = .device →
      ∃ t, exec (.sdn disp dst1 src) s = .next t ∧ StoreEffect s t ptr (s.reg src) (s.pc + 1#16)

/-- The address sums of loads, class 01 and stores are taken modulo 65536 (40_load_store.md sections 1 and 3; the wrap is
decision D6, the single register of a store D11). -/
def Obligations.EffectiveAddressesWrap : Prop :=
  ∀ (s : State) (disp : Word) (a b : Reg),
    (s.effAddr disp a b).toNat = (disp.toNat + (s.reg a).toNat + (s.reg b).toNat) % 65536 ∧
      (s.storeAddr disp a).toNat = (disp.toNat + (s.reg a).toNat) % 65536

/-! ### Class 01 -/

/-- `addi`, `subi`, `andi`, `ori` (41_alu.md section 2; that they step over the immediate is decision D7, the order of
`subi` D8, that FLAG_RULE writes the flags D13): they always complete. Where the parameter SUBI_REVERSED is set, the
optional switch of D8, `subi` subtracts the other way; that its flags are then those of that subtraction, with the
immediate as first operand, is the model's choice, log 17. -/
def Obligations.AluImmediateForms : Prop :=
  ∀ (dst : Reg) (imm : Word) (s : State),
    (∃ t, exec (.addi dst imm) s = .next t ∧
      AluEffect s t .add dst (s.reg dst) imm (s.reg dst + imm) (s.pc + 1#16)) ∧
    (s.cfg.subiReversed = false → ∃ t, exec (.subi dst imm) s = .next t ∧
      AluEffect s t .sub dst (s.reg dst) imm (s.reg dst - imm) (s.pc + 1#16)) ∧
    (s.cfg.subiReversed = true → ∃ t, exec (.subi dst imm) s = .next t ∧
      AluEffect s t .sub dst imm (s.reg dst) (imm - s.reg dst) (s.pc + 1#16)) ∧
    (∃ t, exec (.andi dst imm) s = .next t ∧
      AluEffect s t .and dst (s.reg dst) imm (s.reg dst &&& imm) (s.pc + 1#16)) ∧
    ∃ t, exec (.ori dst imm) s = .next t ∧
      AluEffect s t .or dst (s.reg dst) imm (s.reg dst ||| imm) (s.pc + 1#16)

/-- `addr`, `subr`, `andr`, `orr` (41_alu.md section 2; that FLAG_RULE writes the flags is decision D13): they always
complete, and the second operand is the old value of the source register, the destination itself or not. -/
def Obligations.AluRegisterForms : Prop :=
  ∀ (dst src1 : Reg) (s : State),
    (∃ t, exec (.addr dst src1) s = .next t ∧
      AluEffect s t .add dst (s.reg dst) (s.reg src1) (s.reg dst + s.reg src1) s.pc) ∧
    (∃ t, exec (.subr dst src1) s = .next t ∧
      AluEffect s t .sub dst (s.reg dst) (s.reg src1) (s.reg dst - s.reg src1) s.pc) ∧
    (∃ t, exec (.andr dst src1) s = .next t ∧
      AluEffect s t .and dst (s.reg dst) (s.reg src1) (s.reg dst &&& s.reg src1) s.pc) ∧
    ∃ t, exec (.orr dst src1) s = .next t ∧
      AluEffect s t .or dst (s.reg dst) (s.reg src1) (s.reg dst ||| s.reg src1) s.pc

/-- `addx`, `subx`, `andx`, `orx` (41_alu.md section 2; that FLAG_RULE writes the flags is decision D13): they complete
whenever the word at the effective address can be read, and that word is the second operand. -/
def Obligations.AluIndexedForms : Prop :=
  ∀ (dst : Reg) (disp : Word) (src1 src2 : Reg) (s : State) (b : Word),
    s.memRead (s.effAddr disp src1 src2) = .ok b →
      (∃ t, exec (.addx dst disp src1 src2) s = .next t ∧
        AluEffect s t .add dst (s.reg dst) b (s.reg dst + b) (s.pc + 1#16)) ∧
      (∃ t, exec (.subx dst disp src1 src2) s = .next t ∧
        AluEffect s t .sub dst (s.reg dst) b (s.reg dst - b) (s.pc + 1#16)) ∧
      (∃ t, exec (.andx dst disp src1 src2) s = .next t ∧
        AluEffect s t .and dst (s.reg dst) b (s.reg dst &&& b) (s.pc + 1#16)) ∧
      ∃ t, exec (.orx dst disp src1 src2) s = .next t ∧
        AluEffect s t .or dst (s.reg dst) b (s.reg dst ||| b) (s.pc + 1#16)

/-- `addn`, `subn`, `andn`, `orn` (41_alu.md section 2; that FLAG_RULE writes the flags is decision D13): they complete
whenever the pointer at the effective address and the word it points at can be read, and that word is the second
operand. The second read is made in the state after the first, which is the same state except at a device (log 28). -/
def Obligations.AluIndirectForms : Prop :=
  ∀ (dst : Reg) (disp : Word) (src1 src2 : Reg) (s : State) (ptr b : Word),
    s.memRead (s.effAddr disp src1 src2) = .ok ptr →
    (s.afterRead (s.effAddr disp src1 src2)).memRead ptr = .ok b →
      (∃ t, exec (.addn dst disp src1 src2) s = .next t ∧
        AluEffect s t .add dst (s.reg dst) b (s.reg dst + b) (s.pc + 1#16)) ∧
      (∃ t, exec (.subn dst disp src1 src2) s = .next t ∧
        AluEffect s t .sub dst (s.reg dst) b (s.reg dst - b) (s.pc + 1#16)) ∧
      (∃ t, exec (.andn dst disp src1 src2) s = .next t ∧
        AluEffect s t .and dst (s.reg dst) b (s.reg dst &&& b) (s.pc + 1#16)) ∧
      ∃ t, exec (.orn dst disp src1 src2) s = .next t ∧
        AluEffect s t .or dst (s.reg dst) b (s.reg dst ||| b) (s.pc + 1#16)

/-- The operand model of the sixteen two-operand instructions (R90): the fields of a first word select the operation, the
destination and the second operand; each instruction completes exactly when that operand has a value, and then the
result on the destination's old value and that operand is in the destination register, with no other register and no
memory changed. SUBI_REVERSED is at the spec's reading. -/
def Obligations.TwoOperandModel : Prop :=
  (∀ (cfg : Config) (iw w2 : Word) (op : AluOp), cfg.unusedFields = .ignore → drawnAluOp iw = some op →
    ∃ i rest, decode cfg [iw, w2] = .ok (i, rest) ∧ aluForm i = some (op, regField iw 8, drawnOperand iw w2)) ∧
  ∀ (i : Instr) (op : AluOp) (dst : Reg) (o : Operand) (s : State), aluForm i = some (op, dst, o) →
    s.cfg.subiReversed = false →
      ((∃ t, exec i s = .next t) ↔ ∃ b, OperandIs s o b) ∧
      ∀ b t, OperandIs s o b → exec i s = .next t →
        RegWritten s t dst (aluResult op (s.reg dst) b) ∧ MemKept s t

/-- The arithmetic and FLAG_RULE at its default, in integers (R5, R91, R109; decisions D6, D13, D29): C makes up the
difference between the 16-bit sum or difference and the exact one, and is 0 after AND and OR; Z is set exactly for the
result 0, M exactly for a result with bit 15 set. -/
def Obligations.DefaultFlagsAreExactArithmetic : Prop :=
  ∀ (cfg : Config) (old : Flags) (op : AluOp) (a b : Word), cfg.flagRule = .borrow →
    ((flagRule cfg old op a b (aluResult op a b)).z = true ↔ (aluResult op a b).toNat = 0) ∧
    ((flagRule cfg old op a b (aluResult op a b)).m = true ↔ 32768 ≤ (aluResult op a b).toNat) ∧
    (op = .add → a.toNat + b.toNat =
      (aluResult op a b).toNat + 65536 * (flagRule cfg old op a b (aluResult op a b)).c.toNat) ∧
    (op = .sub ∨ op = .cmp → a.toNat + 65536 * (flagRule cfg old op a b (aluResult op a b)).c.toNat =
      b.toNat + (aluResult op a b).toNat) ∧
    (op = .and ∨ op = .or → (flagRule cfg old op a b (aluResult op a b)).c = false)

/-- `cmp` (41_alu.md section 3; all of its semantics is decision D14): it always completes and changes the flags only,
to those of the register less the operand that CMP_RULE gives; with the default rules Z is set when the register is 0,
M is its bit 15 and C is 0. -/
def Obligations.CompareWritesOnlyFlags : Prop :=
  ∀ (reg : Reg) (s : State), ∃ t, exec (.cmp reg) s = .next t ∧ t.pc = s.pc ∧ RegsKept s t ∧ MemKept s t ∧
    ParamsKept s t ∧
    FlagsWritten t (flagRule s.cfg s.flags .cmp (s.reg reg) (cmpOperand s.cfg reg s.regs)
      (s.reg reg - cmpOperand s.cfg reg s.regs)) ∧
    (s.cfg.flagRule = .borrow → s.cfg.cmpRule = .zero →
      t.flagZ = decide (s.reg reg = 0x0000#16) ∧ t.flagM = (s.reg reg).getLsbD 15 ∧ t.flagC = false)

/-! ### Classes 10 and 11 -/

/-- `j` (R121): which first words it is, and that it always completes, with the pc at the second word's value and
nothing else changed. -/
def Obligations.JumpUnconditional : Prop :=
  (∀ (cfg : Config) (iw target : Word) (rest : List Word), cfg.unusedFields = .ignore →
    iw &&& 0xF800#16 = 0x8800#16 → decode cfg (iw :: target :: rest) = .ok (.j target, rest)) ∧
  ∀ (target : Word) (s : State), ∃ t, exec (.j target) s = .next t ∧ JumpEffect s t target

/-- `jz`, `jnz`, `jc`, `jnc`, `jm`, `jnm` (R122 to R127): which first words they are, and that they always complete,
with the pc at the second word's value when their flag is as they want it, else past the second word, and nothing else
changed. -/
def Obligations.ConditionalJumps : Prop :=
  (∀ (cfg : Config) (iw target : Word) (rest : List Word), cfg.unusedFields = .ignore →
    (iw &&& 0xF800#16 = 0x9000#16 → decode cfg (iw :: target :: rest) = .ok (.jz target, rest)) ∧
    (iw &&& 0xF800#16 = 0x9800#16 → decode cfg (iw :: target :: rest) = .ok (.jnz target, rest)) ∧
    (iw &&& 0xF800#16 = 0xA000#16 → decode cfg (iw :: target :: rest) = .ok (.jc target, rest)) ∧
    (iw &&& 0xF800#16 = 0xA800#16 → decode cfg (iw :: target :: rest) = .ok (.jnc target, rest)) ∧
    (iw &&& 0xF800#16 = 0xB000#16 → decode cfg (iw :: target :: rest) = .ok (.jm target, rest)) ∧
    (iw &&& 0xF800#16 = 0xB800#16 → decode cfg (iw :: target :: rest) = .ok (.jnm target, rest))) ∧
  ∀ (target : Word) (s : State),
    (∃ t, exec (.jz target) s = .next t ∧ JumpEffect s t (if s.flagZ then target else s.pc + 1#16)) ∧
    (∃ t, exec (.jnz target) s = .next t ∧ JumpEffect s t (if s.flagZ then s.pc + 1#16 else target)) ∧
    (∃ t, exec (.jc target) s = .next t ∧ JumpEffect s t (if s.flagC then target else s.pc + 1#16)) ∧
    (∃ t, exec (.jnc target) s = .next t ∧ JumpEffect s t (if s.flagC then s.pc + 1#16 else target)) ∧
    (∃ t, exec (.jm target) s = .next t ∧ JumpEffect s t (if s.flagM then target else s.pc + 1#16)) ∧
    ∃ t, exec (.jnm target) s = .next t ∧ JumpEffect s t (if s.flagM then s.pc + 1#16 else target)

/-- `jal` (43_call_return.md section 2; that its first words have `t = 1` is decision D9, log 18, on which any claim about
the raw words 0xC000 to 0xFFFF depends): which first words it is, and that it always completes, with the link register holding the address
after the second word, the pc at the address of the second word plus the second word, and nothing else changed. -/
def Obligations.JumpAndLink : Prop :=
  (∀ (cfg : Config) (iw disp : Word) (rest : List Word), cfg.unusedFields = .ignore →
    iw &&& 0xE000#16 = 0xE000#16 → decode cfg (iw :: disp :: rest) = .ok (.jal (regField iw 0) disp, rest)) ∧
  ∀ (lnk : Reg) (disp : Word) (s : State), ∃ t, exec (.jal lnk disp) s = .next t ∧
    RegWritten s t lnk (s.pc + 1#16) ∧ t.pc = s.pc + disp ∧ FlagsKept s t ∧ MemKept s t ∧ ParamsKept s t

/-- `jr` (43_call_return.md section 2; that its first words have `t = 0` is decision D9): it completes whenever the word
its register points at can be read, with the pc at that word's value and nothing else changed. -/
def Obligations.ReturnGoesThroughMemory : Prop :=
  (∀ (cfg : Config) (iw : Word) (rest : List Word), cfg.unusedFields = .ignore →
    iw &&& 0xE000#16 = 0xC000#16 → decode cfg (iw :: rest) = .ok (.jr (regField iw 0), rest)) ∧
  ∀ (lnk : Reg) (s : State) (target : Word), s.memRead (s.reg lnk) = .ok target →
    ∃ t, exec (.jr lnk) s = .next t ∧ JumpEffect s t target

/-! ### Rules over all instructions -/

/-- Every instruction of classes 00 and 01 that completes steps over exactly its own words: the pc moves on by the number
of second words its encoding has (R14; the immediate forms of class 01 by decision D7). -/
def Obligations.PcStepsOverTheInstructionsWords : Prop :=
  ∀ (i : Instr) (s t : State), isTransfer i = false → exec i s = .next t →
    t.pc = s.pc + BitVec.ofNat 16 ((encode s.cfg i).length - 1)

/-- No instruction writes a register other than the one the table of R11 gives it. -/
def Obligations.RegisterWritesFollowTheTable : Prop :=
  ∀ (i : Instr) (s t : State) (r : Reg), exec i s = .next t → writtenReg i ≠ some r → t.reg r = s.reg r

/-- No instruction reads a register other than those the table of R11 gives it: another value in any other register
changes the outcome in that register only, and not even there if the instruction writes it. For `cmp` this is so under
the default CMP_RULE, an uninterpreted one may read any register (log 8). That devices answer the two runs alike is the
model's choice, log 28. -/
def Obligations.RegisterReadsFollowTheTable : Prop :=
  ∀ (i : Instr) (s : State) (r : Reg) (v : Word), r ∉ readRegs i →
    (∀ reg, i = .cmp reg → s.cfg.cmpRule = .zero) →
      exec i (s.setReg r v) = if writtenReg i = some r then exec i s else withReg r v (exec i s)

/-- No instruction outside class 01 writes a flag (10_state.md section 3; decision D13). -/
def Obligations.OnlyClass01WritesFlags : Prop :=
  ∀ (i : Instr) (s t : State), isClass01 i = false → exec i s = .next t → FlagsKept s t

/-- No instruction reads a flag but the six conditional jumps, and each of them only its own (R17): with other flags that
agree on the one it tests, an instruction of class 01 ends in the same state and any other in the same state but for
those flags, or it stops the same way. That class 01 rewrites all three flags and every other instruction keeps them
is decision D13 (R18). An uninterpreted FLAG_RULE, which is log 7, may look at the flags before, but only to give the
flags after: the equation exempts it. That devices answer the two runs alike is the model's choice, log 28. -/
def Obligations.FlagsAreReadOnlyByTheirJumps : Prop :=
  ∀ (i : Instr) (s : State) (f : Flags), sameTestedFlag i s (s.setFlags f) →
    (s.cfg.flagRule ≠ .uninterpreted →
      exec i (s.setFlags f) = if isClass01 i then exec i s else withNewFlags f (exec i s)) ∧
    SameButFlags (exec i s) (exec i (s.setFlags f))

/-- The accesses of each instruction that can be fetched are those of R39's table, in its order, whatever stands at their
addresses, for a state in which the pointers it follows can be read; `u` is the state after the fetch. -/
def Obligations.AccessOrderFollowsTheTable : Prop :=
  ∀ (s u : State) (i : Instr), s.halted = false → s.fetch = .ok (i, u) → ruleAccesses u s.pc i s.accesses

/-- What devices see of the machine is the accesses of R39 that are made at them, in that order and no others: of an
instruction its data accesses, of a step all of its cycle (R36; decision D24, log 28). -/
def Obligations.DevicesSeeTheAccessesInOrder : Prop :=
  (∀ (i : Instr) (s t : State), exec i s = .next t → DevicesSee s t (s.dataAccesses i)) ∧
    ∀ s t : State, step s = .next t → DevicesSee s t s.accesses

/-- A conditional jump that is not taken reads its address word, which a device mapped there sees, and goes on past it
whatever the device answers (R36, R39, R120; decision D24, log 28; ignored bits decision D10). -/
def Obligations.UntakenJumpReadsItsAddressWordAtADevice : Prop :=
  ∀ (s : State) (iw : Word), s.halted = false → s.cfg.unusedFields = .ignore → s.memRead s.pc = .ok iw →
    onDevice s.cfg (s.pc + 1#16) = true →
    (iw &&& 0xF800#16 = 0x9000#16 ∧ s.flagZ = false ∨ iw &&& 0xF800#16 = 0x9800#16 ∧ s.flagZ = true ∨
      iw &&& 0xF800#16 = 0xA000#16 ∧ s.flagC = false ∨ iw &&& 0xF800#16 = 0xA800#16 ∧ s.flagC = true ∨
      iw &&& 0xF800#16 = 0xB000#16 ∧ s.flagM = false ∨ iw &&& 0xF800#16 = 0xB800#16 ∧ s.flagM = true) →
      ∃ t, step s = .next t ∧ JumpEffect s t (s.pc + 1#16 + 1#16) ∧
        DevicesSee s t [.read s.pc, .read (s.pc + 1#16)]

/-- A cycle makes between one and four reads and at most one write (20_memory.md section 2). -/
def Obligations.OneToFourReadsAtMostOneWrite : Prop :=
  ∀ s : State, s.halted = false →
    1 ≤ s.accesses.countP Access.isRead ∧ s.accesses.countP Access.isRead ≤ 4 ∧
      s.accesses.length ≤ s.accesses.countP Access.isRead + 1

/-- A step goes on exactly when every access of its cycle can go on, and otherwise ends as the first access that cannot
says, whatever came before it; the first word is one the decoder accepts, or cannot be read (60_exceptions.md section 3;
decisions D24, D30). That an access to a device always goes on is log 28. -/
def Obligations.StepStopsAtItsFirstFailingAccess : Prop :=
  ∀ s : State, s.halted = false →
    (∀ iw, s.memRead s.pc = .ok iw → ∃ row, decodeFirst s.cfg iw = .ok row) →
      (∀ stop, s.accesses.findSome? (Access.stop s) = some stop → step s = stop.result) ∧
        (s.accesses.findSome? (Access.stop s) = none → ∃ t, step s = .next t)

/-- A step changes no byte of memory outside the word of its write access (R32, R39), and none at all where that access is
at a device: this last is the model's choice, log 28 (R36 with decision D24 says only what the device sees). -/
def Obligations.StepWritesOnlyItsWriteAccess : Prop :=
  ∀ (s t : State) (c : Nat), step s = .next t →
    (∀ a v, Access.write a v ∈ s.accesses → onDevice s.cfg a = false → c ≠ lowCell a ∧ c ≠ highCell a) →
      Memory.byteAt t.mem c = Memory.byteAt s.mem c

/-- A step learns nothing of memory but the words of its read accesses: with another memory that holds the same words
there, it ends with the same registers, pc and flags, and devices have seen the same, or it stops the same way (R39).
What devices have seen is R36 (decision D24); that it is kept in the state, and that a device's answer depends on it and
the address alone, so that the devices of the two runs answer alike, is the model's choice, log 28.
The memories after the step are not compared: the word a store writes is the concern of the statement Stores. -/
def Obligations.StepReadsOnlyItsReadAccesses : Prop :=
  ∀ (s : State) (m : Memory),
    (∀ a, Access.read a ∈ s.accesses → Memory.wordAt m a = Memory.wordAt s.mem a) →
      SameButMem (step s) (step (s.setMem m))

/-- No run changes a parameter (log 6: the parameters are held in the state). -/
def Obligations.ParametersNeverChange : Prop :=
  ∀ s t : State, s.Reaches t → t.cfg = s.cfg

/-- A store to memory is seen by the very next fetch, with no other action (20_memory.md section 5; decision D23). -/
def Obligations.StoreIsSeenByTheNextFetch : Prop :=
  (∀ (disp : Word) (dst1 src : Reg) (s t : State), exec (.stx disp dst1 src) s = .next t →
    s.storeAddr disp dst1 = t.pc → onDevice s.cfg t.pc = false → t.memRead t.pc = .ok (s.reg src)) ∧
  ∀ (disp : Word) (dst1 src : Reg) (s t : State), exec (.sdn disp dst1 src) s = .next t →
    s.memRead (s.storeAddr disp dst1) = .ok t.pc → onDevice s.cfg t.pc = false → t.memRead t.pc = .ok (s.reg src)

/-! ### Reset, invariants, runs -/

/-- A launch starts at RESET_PC: the reset state is a launch with the default parameters and nothing loaded, its pc is
0x0000, and the first access of any launch whose run is not over is the fetch at RESET_PC (10_state.md section 5;
decision D18). Registers and flags of a launch may hold anything, and devices may have any history. -/
def Obligations.LaunchStartsAtResetPc : Prop :=
  State.Launched Config.default [] State.reset ∧ State.reset.pc = 0x0000#16 ∧
    ∀ (cfg : Config) (image : Memory) (s : State), State.Launched cfg image s → s.halted = false →
      s.accesses.head? = some (.read cfg.resetPc)

/-- The reset state meets the invariant: its memory has the canonical form and its MEM_MAP is well-formed (log 9, 10). -/
def Obligations.ResetMeetsTheInvariant : Prop :=
  State.Inv State.reset

/-- Every step keeps the invariant: memory stays a map from word addresses to words in its canonical form, and MEM_MAP
well-formed (20_memory.md sections 1 and 2; log 9, 10). -/
def Obligations.StepKeepsTheInvariant : Prop :=
  ∀ s t : State, State.Inv s → step s = .next t → State.Inv t

/-- The machine raises no exception of its own (60_exceptions.md section 1; decision D16): with every address read/write
memory or a device's and every word of memory defined, a step at a word the decoder accepts goes on, and memory stays
wholly defined (that an access to a device always goes on is log 28). -/
def Obligations.DefinedMachineNeverStops : Prop :=
  ∀ s : State, s.AllDefined → (∀ a, regionKind s.cfg a = .readWrite ∨ regionKind s.cfg a = .device) →
    (∀ iw, s.memRead s.pc = .ok iw → ∃ row, decodeFirst s.cfg iw = .ok row) →
      ∃ t, step s = .next t ∧ t.AllDefined

/-- No run changes a word that MEM_MAP does not make read/write memory (60_exceptions.md section 1; decision D24). In a
device's window, where a store goes on, that the word of memory stays as it was is the model's choice, log 28. -/
def Obligations.NoRunChangesAWordThatIsNotWritable : Prop :=
  ∀ (s t : State) (a : Word), s.Reaches t → regionKind s.cfg a ≠ .readWrite →
    Memory.wordAt t.mem a = Memory.wordAt s.mem a

/-- A word that is defined stays defined along every run: nothing but the launch leaves a word undefined (R148). -/
def Obligations.DefinedWordsStayDefined : Prop :=
  ∀ (s t : State) (a : Word), s.Reaches t → (Memory.wordAt s.mem a).isSome = true →
    (Memory.wordAt t.mem a).isSome = true
end

