-- ==== Sys2Proof/Laws/State.lean ====
section
/-! SUPPORT. What each update of the state does to each field, and what reading a register gives after it. -/

namespace Sys2Proof.Machine

/-! ### `setReg` -/

@[simp] theorem State.setReg_regs (s : State) (r : Reg) (v : Word) : (s.setReg r v).regs = s.regs.set r.val v r.isLt := rfl

@[simp] theorem State.setReg_pc (s : State) (r : Reg) (v : Word) : (s.setReg r v).pc = s.pc := rfl

@[simp] theorem State.setReg_flagZ (s : State) (r : Reg) (v : Word) : (s.setReg r v).flagZ = s.flagZ := rfl

@[simp] theorem State.setReg_flagC (s : State) (r : Reg) (v : Word) : (s.setReg r v).flagC = s.flagC := rfl

@[simp] theorem State.setReg_flagM (s : State) (r : Reg) (v : Word) : (s.setReg r v).flagM = s.flagM := rfl

@[simp] theorem State.setReg_mem (s : State) (r : Reg) (v : Word) : (s.setReg r v).mem = s.mem := rfl

@[simp] theorem State.setReg_deviceSeen (s : State) (r : Reg) (v : Word) : (s.setReg r v).deviceSeen = s.deviceSeen := rfl

@[simp] theorem State.setReg_cfg (s : State) (r : Reg) (v : Word) : (s.setReg r v).cfg = s.cfg := rfl

/-! ### `setPc` -/

@[simp] theorem State.setPc_regs (s : State) (p : Word) : (s.setPc p).regs = s.regs := rfl

@[simp] theorem State.setPc_pc (s : State) (p : Word) : (s.setPc p).pc = p := rfl

@[simp] theorem State.setPc_flagZ (s : State) (p : Word) : (s.setPc p).flagZ = s.flagZ := rfl

@[simp] theorem State.setPc_flagC (s : State) (p : Word) : (s.setPc p).flagC = s.flagC := rfl

@[simp] theorem State.setPc_flagM (s : State) (p : Word) : (s.setPc p).flagM = s.flagM := rfl

@[simp] theorem State.setPc_mem (s : State) (p : Word) : (s.setPc p).mem = s.mem := rfl

@[simp] theorem State.setPc_deviceSeen (s : State) (p : Word) : (s.setPc p).deviceSeen = s.deviceSeen := rfl

@[simp] theorem State.setPc_cfg (s : State) (p : Word) : (s.setPc p).cfg = s.cfg := rfl

/-! ### `nextWord` -/

@[simp] theorem State.nextWord_regs (s : State) : (s.nextWord).regs = s.regs := rfl

@[simp] theorem State.nextWord_pc (s : State) : (s.nextWord).pc = s.pc + 1#16 := rfl

@[simp] theorem State.nextWord_flagZ (s : State) : (s.nextWord).flagZ = s.flagZ := rfl

@[simp] theorem State.nextWord_flagC (s : State) : (s.nextWord).flagC = s.flagC := rfl

@[simp] theorem State.nextWord_flagM (s : State) : (s.nextWord).flagM = s.flagM := rfl

@[simp] theorem State.nextWord_mem (s : State) : (s.nextWord).mem = s.mem := rfl

@[simp] theorem State.nextWord_deviceSeen (s : State) : (s.nextWord).deviceSeen = s.deviceSeen := rfl

@[simp] theorem State.nextWord_cfg (s : State) : (s.nextWord).cfg = s.cfg := rfl

/-! ### `setFlags` -/

@[simp] theorem State.setFlags_regs (s : State) (f : Flags) : (s.setFlags f).regs = s.regs := rfl

@[simp] theorem State.setFlags_pc (s : State) (f : Flags) : (s.setFlags f).pc = s.pc := rfl

@[simp] theorem State.setFlags_flagZ (s : State) (f : Flags) : (s.setFlags f).flagZ = f.z := rfl

@[simp] theorem State.setFlags_flagC (s : State) (f : Flags) : (s.setFlags f).flagC = f.c := rfl

@[simp] theorem State.setFlags_flagM (s : State) (f : Flags) : (s.setFlags f).flagM = f.m := rfl

@[simp] theorem State.setFlags_mem (s : State) (f : Flags) : (s.setFlags f).mem = s.mem := rfl

@[simp] theorem State.setFlags_deviceSeen (s : State) (f : Flags) : (s.setFlags f).deviceSeen = s.deviceSeen := rfl

@[simp] theorem State.setFlags_cfg (s : State) (f : Flags) : (s.setFlags f).cfg = s.cfg := rfl

/-! ### `setMem` -/

@[simp] theorem State.setMem_regs (s : State) (m : Memory) : (s.setMem m).regs = s.regs := rfl

@[simp] theorem State.setMem_pc (s : State) (m : Memory) : (s.setMem m).pc = s.pc := rfl

@[simp] theorem State.setMem_flagZ (s : State) (m : Memory) : (s.setMem m).flagZ = s.flagZ := rfl

@[simp] theorem State.setMem_flagC (s : State) (m : Memory) : (s.setMem m).flagC = s.flagC := rfl

@[simp] theorem State.setMem_flagM (s : State) (m : Memory) : (s.setMem m).flagM = s.flagM := rfl

@[simp] theorem State.setMem_mem (s : State) (m : Memory) : (s.setMem m).mem = m := rfl

@[simp] theorem State.setMem_deviceSeen (s : State) (m : Memory) : (s.setMem m).deviceSeen = s.deviceSeen := rfl

@[simp] theorem State.setMem_cfg (s : State) (m : Memory) : (s.setMem m).cfg = s.cfg := rfl

/-! ### `deviceSees` and `afterRead`: what an access at a device leaves -/

@[simp] theorem State.deviceSees_regs (s : State) (acc : Access) : (s.deviceSees acc).regs = s.regs := rfl

@[simp] theorem State.deviceSees_pc (s : State) (acc : Access) : (s.deviceSees acc).pc = s.pc := rfl

@[simp] theorem State.deviceSees_flagZ (s : State) (acc : Access) : (s.deviceSees acc).flagZ = s.flagZ := rfl

@[simp] theorem State.deviceSees_flagC (s : State) (acc : Access) : (s.deviceSees acc).flagC = s.flagC := rfl

@[simp] theorem State.deviceSees_flagM (s : State) (acc : Access) : (s.deviceSees acc).flagM = s.flagM := rfl

@[simp] theorem State.deviceSees_mem (s : State) (acc : Access) : (s.deviceSees acc).mem = s.mem := rfl

@[simp] theorem State.deviceSees_cfg (s : State) (acc : Access) : (s.deviceSees acc).cfg = s.cfg := rfl

@[simp] theorem State.deviceSees_deviceSeen (s : State) (acc : Access) :
    (s.deviceSees acc).deviceSeen = s.deviceSeen ++ [acc] := rfl

@[simp] theorem State.deviceSees_reg (s : State) (acc : Access) (q : Reg) : (s.deviceSees acc).reg q = s.reg q := rfl

@[simp] theorem State.deviceSees_flags (s : State) (acc : Access) : (s.deviceSees acc).flags = s.flags := rfl

/-- The state after a read is the state before but for what devices have seen (R32, R36). -/
theorem State.afterRead_eq (s : State) (a : Word) :
    s.afterRead a = { s with deviceSeen := (s.afterRead a).deviceSeen } := by
  unfold State.afterRead
  split <;> rfl

@[simp] theorem State.afterRead_regs (s : State) (a : Word) : (s.afterRead a).regs = s.regs := by
  rw [State.afterRead_eq]

@[simp] theorem State.afterRead_pc (s : State) (a : Word) : (s.afterRead a).pc = s.pc := by
  rw [State.afterRead_eq]

@[simp] theorem State.afterRead_flagZ (s : State) (a : Word) : (s.afterRead a).flagZ = s.flagZ := by
  rw [State.afterRead_eq]

@[simp] theorem State.afterRead_flagC (s : State) (a : Word) : (s.afterRead a).flagC = s.flagC := by
  rw [State.afterRead_eq]

@[simp] theorem State.afterRead_flagM (s : State) (a : Word) : (s.afterRead a).flagM = s.flagM := by
  rw [State.afterRead_eq]

@[simp] theorem State.afterRead_mem (s : State) (a : Word) : (s.afterRead a).mem = s.mem := by
  rw [State.afterRead_eq]

@[simp] theorem State.afterRead_cfg (s : State) (a : Word) : (s.afterRead a).cfg = s.cfg := by
  rw [State.afterRead_eq]

@[simp] theorem State.afterRead_flags (s : State) (a : Word) : (s.afterRead a).flags = s.flags := by
  rw [State.afterRead_eq]
  rfl

@[simp] theorem State.afterRead_deviceSeen (s : State) (a : Word) :
    (s.afterRead a).deviceSeen = s.deviceSeen ++ if onDevice s.cfg a then [.read a] else [] := by
  unfold State.afterRead
  split <;> simp

@[simp] theorem State.afterRead_reg (s : State) (a : Word) (q : Reg) : (s.afterRead a).reg q = s.reg q := by
  rw [State.afterRead_eq]
  rfl

/-- A read elsewhere than at a device changes nothing. -/
theorem State.afterRead_memory {s : State} {a : Word} (h : onDevice s.cfg a = false) : s.afterRead a = s := by
  simp [State.afterRead, h]

theorem State.setReg_afterRead (s : State) (r : Reg) (v a : Word) :
    (s.setReg r v).afterRead a = (s.afterRead a).setReg r v := by
  unfold State.afterRead
  rw [State.setReg_cfg]
  split <;> rfl

theorem State.setPc_afterRead (s : State) (p a : Word) : (s.setPc p).afterRead a = (s.afterRead a).setPc p := by
  unfold State.afterRead
  rw [State.setPc_cfg]
  split <;> rfl

theorem State.setFlags_afterRead (s : State) (f : Flags) (a : Word) :
    (s.setFlags f).afterRead a = (s.afterRead a).setFlags f := by
  unfold State.afterRead
  rw [State.setFlags_cfg]
  split <;> rfl

theorem State.setMem_afterRead (s : State) (m : Memory) (a : Word) :
    (s.setMem m).afterRead a = (s.afterRead a).setMem m := by
  unfold State.afterRead
  rw [State.setMem_cfg]
  split <;> rfl

theorem State.nextWord_afterRead (s : State) (a : Word) : s.nextWord.afterRead a = (s.afterRead a).nextWord := by
  simp only [State.nextWord, State.setPc_afterRead, State.afterRead_pc]

/-! ### Registers and flags after an update -/

@[simp] theorem State.setReg_reg (s : State) (r q : Reg) (v : Word) :
    (s.setReg r v).reg q = if q = r then v else s.reg q := by
  unfold State.reg State.setReg
  simp only [Vector.get_eq_getElem, Vector.getElem_set]
  by_cases h : q = r
  · simp [h]
  · have h' : r.val ≠ q.val := fun e => h (Fin.ext e.symm)
    simp [h, h']

@[simp] theorem State.setPc_reg (s : State) (p : Word) (q : Reg) : (s.setPc p).reg q = s.reg q := rfl

@[simp] theorem State.nextWord_reg (s : State) (q : Reg) : s.nextWord.reg q = s.reg q := rfl

@[simp] theorem State.setFlags_reg (s : State) (f : Flags) (q : Reg) : (s.setFlags f).reg q = s.reg q := rfl

@[simp] theorem State.setMem_reg (s : State) (m : Memory) (q : Reg) : (s.setMem m).reg q = s.reg q := rfl

@[simp] theorem State.setReg_flags (s : State) (r : Reg) (v : Word) : (s.setReg r v).flags = s.flags := rfl

@[simp] theorem State.setPc_flags (s : State) (p : Word) : (s.setPc p).flags = s.flags := rfl

@[simp] theorem State.nextWord_flags (s : State) : s.nextWord.flags = s.flags := rfl

@[simp] theorem State.setFlags_flags (s : State) (f : Flags) : (s.setFlags f).flags = f := rfl

@[simp] theorem State.setMem_flags (s : State) (m : Memory) : (s.setMem m).flags = s.flags := rfl

/-- Registers that agree one by one are the same register file. -/
theorem State.regs_ext (s t : State) (h : ∀ q : Reg, s.reg q = t.reg q) : s.regs = t.regs := by
  apply Vector.ext
  intro i hi
  simpa [State.reg, Vector.get_eq_getElem] using h ⟨i, hi⟩

/-! ### `pastOperand`: past the second word of an operand that has one -/

/-- How many second words an operand form has (R53). -/
def Operand.secondWords : Operand → Word
  | .immediate _ => 1#16
  | .register _ => 0#16
  | .indexed _ _ _ => 1#16
  | .indirect _ _ _ => 1#16

@[simp] theorem State.pastOperand_pc (s : State) (o : Operand) : (s.pastOperand o).pc = s.pc + o.secondWords := by
  cases o <;> simp [State.pastOperand, Operand.secondWords]

@[simp] theorem State.pastOperand_regs (s : State) (o : Operand) : (s.pastOperand o).regs = s.regs := by
  cases o <;> rfl

@[simp] theorem State.pastOperand_flagZ (s : State) (o : Operand) : (s.pastOperand o).flagZ = s.flagZ := by
  cases o <;> rfl

@[simp] theorem State.pastOperand_flagC (s : State) (o : Operand) : (s.pastOperand o).flagC = s.flagC := by
  cases o <;> rfl

@[simp] theorem State.pastOperand_flagM (s : State) (o : Operand) : (s.pastOperand o).flagM = s.flagM := by
  cases o <;> rfl

@[simp] theorem State.pastOperand_mem (s : State) (o : Operand) : (s.pastOperand o).mem = s.mem := by
  cases o <;> rfl

@[simp] theorem State.pastOperand_deviceSeen (s : State) (o : Operand) :
    (s.pastOperand o).deviceSeen = s.deviceSeen := by
  cases o <;> rfl

@[simp] theorem State.pastOperand_cfg (s : State) (o : Operand) : (s.pastOperand o).cfg = s.cfg := by
  cases o <;> rfl

@[simp] theorem State.pastOperand_reg (s : State) (o : Operand) (q : Reg) : (s.pastOperand o).reg q = s.reg q := by
  cases o <;> rfl

/-! ### `writeAlu`: the result register and the flags -/

@[simp] theorem State.writeAlu_pc (s : State) (op : AluOp) (dst : Reg) (a b : Word) :
    (s.writeAlu op dst a b).pc = s.pc := rfl

@[simp] theorem State.writeAlu_mem (s : State) (op : AluOp) (dst : Reg) (a b : Word) :
    (s.writeAlu op dst a b).mem = s.mem := rfl

@[simp] theorem State.writeAlu_deviceSeen (s : State) (op : AluOp) (dst : Reg) (a b : Word) :
    (s.writeAlu op dst a b).deviceSeen = s.deviceSeen := rfl

@[simp] theorem State.writeAlu_cfg (s : State) (op : AluOp) (dst : Reg) (a b : Word) :
    (s.writeAlu op dst a b).cfg = s.cfg := rfl

@[simp] theorem State.writeAlu_reg (s : State) (op : AluOp) (dst q : Reg) (a b : Word) :
    (s.writeAlu op dst a b).reg q = if q = dst then aluResult op a b else s.reg q := by
  simp [State.writeAlu]

@[simp] theorem State.writeAlu_flags (s : State) (op : AluOp) (dst : Reg) (a b : Word) :
    (s.writeAlu op dst a b).flags = flagRule s.cfg s.flags op a b (aluResult op a b) := rfl

end Sys2Proof.Machine
end

