-- ==== Sys2Proof/Laws/Memory.lean ====
section
/-! SUPPORT. The laws of memory: a read after a write, the canonical form kept by every operation, and what each memory
access can do. -/

namespace Sys2Proof.Machine

/-! ### Cells -/

@[simp] theorem Memory.byteAt_nil (c : Nat) : Memory.byteAt [] c = none := rfl

theorem Memory.byteAt_cons (b : Nat) (w : Byte) (m : Memory) (c : Nat) :
    Memory.byteAt ((b, w) :: m) c = if c = b then some w else Memory.byteAt m c := rfl

/-- A byte after a byte is put: the new one at its own address, the old one elsewhere. -/
theorem Memory.byteAt_setByte (m : Memory) (a c : Nat) (v : Byte) :
    Memory.byteAt (Memory.setByte m a v) c = if c = a then some v else Memory.byteAt m c := by
  induction m with
  | nil => simp [Memory.setByte, Memory.byteAt_cons]
  | cons cell rest ih =>
    obtain ⟨b, w⟩ := cell
    unfold Memory.setByte
    split
    · simp [Memory.byteAt_cons]
    · split
      · rename_i h
        subst h
        by_cases hc : c = a <;> simp [Memory.byteAt_cons, hc]
      · rename_i h
        by_cases hc : c = b
        · subst hc
          simp [Memory.byteAt_cons, Ne.symm h]
        · simp [Memory.byteAt_cons, hc, ih]

/-- The cells after a byte is put are that byte's and old ones. -/
theorem Memory.mem_setByte {m : Memory} {a : Nat} {v : Byte} {c : Host.Cell} (h : c ∈ Memory.setByte m a v) :
    c = (a, v) ∨ c ∈ m := by
  induction m with
  | nil => simpa [Memory.setByte] using h
  | cons cell rest ih =>
    obtain ⟨b, w⟩ := cell
    unfold Memory.setByte at h
    split at h
    · simpa using h
    · split at h
      · rcases List.mem_cons.1 h with h | h
        · exact .inl h
        · exact .inr (List.mem_cons_of_mem _ h)
      · rcases List.mem_cons.1 h with h | h
        · exact .inr (h ▸ List.mem_cons_self)
        · rcases ih h with h | h
          · exact .inl h
          · exact .inr (List.mem_cons_of_mem _ h)

/-- Putting a byte keeps the addresses strictly rising. -/
theorem Memory.setByte_rising {m : Memory} (a : Nat) (v : Byte) (h : m.Pairwise fun c d => c.1 < d.1) :
    (Memory.setByte m a v).Pairwise fun c d => c.1 < d.1 := by
  induction m with
  | nil => simp [Memory.setByte]
  | cons cell rest ih =>
    obtain ⟨b, w⟩ := cell
    obtain ⟨hb, hr⟩ := List.pairwise_cons.1 h
    unfold Memory.setByte
    split
    · rename_i hlt
      refine List.pairwise_cons.2 ⟨fun c hc => ?_, h⟩
      rcases List.mem_cons.1 hc with rfl | hc
      · exact hlt
      · exact lt_trans hlt (hb c hc)
    · split
      · rename_i _ he
        subst he
        exact List.pairwise_cons.2 ⟨hb, hr⟩
      · rename_i hge hne
        refine List.pairwise_cons.2 ⟨fun c hc => ?_, ih hr⟩
        rcases Memory.mem_setByte hc with rfl | hc
        · simp only
          omega
        · exact hb c hc

/-! ### Words -/

theorem lowCell_lt (a : Word) : lowCell a < 131072 := by
  have := a.isLt
  unfold lowCell
  omega

theorem highCell_lt (a : Word) : highCell a < 131072 := by
  have := a.isLt
  unfold highCell
  omega

theorem lowCell_ne_highCell (a b : Word) : lowCell a ≠ highCell b := by
  unfold lowCell highCell
  omega

@[simp] theorem lowCell_inj (a b : Word) : lowCell a = lowCell b ↔ a = b := by
  unfold lowCell
  rw [BitVec.toNat_inj.symm]
  omega

@[simp] theorem highCell_inj (a b : Word) : highCell a = highCell b ↔ a = b := by
  unfold highCell
  rw [BitVec.toNat_inj.symm]
  omega

@[simp] theorem otherCell_lowCell (a : Word) : otherCell (lowCell a) = highCell a := by
  unfold otherCell lowCell highCell
  rw [if_pos (by omega)]

@[simp] theorem otherCell_highCell (a : Word) : otherCell (highCell a) = lowCell a := by
  unfold otherCell lowCell highCell
  rw [if_neg (by omega)]
  omega

/-- A word is its two bytes. -/
@[simp] theorem joinBytes_bytes (v : Word) : joinBytes (highByte v) (lowByte v) = v := by
  unfold joinBytes highByte lowByte
  ext i hi
  simp only [BitVec.getElem_append, BitVec.getElem_extractLsb']
  split
  · simp
    rfl
  · have : 8 + (i - 8) = i := by omega
    simp [this]
    rfl

/-- A byte after a word is written: one of its two bytes at its own cells, the old byte elsewhere. -/
theorem Memory.byteAt_setWord (m : Memory) (a v : Word) (c : Nat) :
    Memory.byteAt (Memory.setWord m a v) c =
      if c = highCell a then some (highByte v) else if c = lowCell a then some (lowByte v) else Memory.byteAt m c := by
  simp only [Memory.setWord, Memory.byteAt_setByte]

/-- A read after a write: the new word at its own address, the old one elsewhere (R32). -/
@[simp] theorem Memory.wordAt_setWord (m : Memory) (a b v : Word) :
    Memory.wordAt (Memory.setWord m a v) b = if b = a then some v else Memory.wordAt m b := by
  unfold Memory.wordAt
  simp only [Memory.byteAt_setWord]
  by_cases h : b = a
  · subst h
    simp [lowCell_ne_highCell]
  · simp [h, lowCell_ne_highCell, Ne.symm (lowCell_ne_highCell a b)]

/-- A write leaves every byte outside its word. -/
theorem Memory.byteAt_setWord_of_ne (m : Memory) (a v : Word) (c : Nat) (hl : c ≠ lowCell a) (hh : c ≠ highCell a) :
    Memory.byteAt (Memory.setWord m a v) c = Memory.byteAt m c := by
  rw [Memory.byteAt_setWord, if_neg hh, if_neg hl]

/-- Two memories with the same bytes hold the same words. -/
theorem Memory.wordAt_congr {m n : Memory} (h : ∀ c, Memory.byteAt n c = Memory.byteAt m c) (a : Word) :
    Memory.wordAt n a = Memory.wordAt m a := by
  simp only [Memory.wordAt, h]

/-! ### The canonical form -/

theorem Memory.wf_nil : Memory.wf [] := by
  simp [Memory.wf]

/-- A word write keeps the canonical form. -/
theorem Memory.setWord_wf {m : Memory} (a v : Word) (h : Memory.wf m) : Memory.wf (Memory.setWord m a v) := by
  obtain ⟨hp, hb, hw⟩ := h
  have mem {c : Host.Cell} (hc : c ∈ Memory.setWord m a v) : c.1 = highCell a ∨ c.1 = lowCell a ∨ c ∈ m := by
    rcases Memory.mem_setByte hc with rfl | hc
    · exact .inl rfl
    · rcases Memory.mem_setByte hc with rfl | hc
      · exact .inr (.inl rfl)
      · exact .inr (.inr hc)
  refine ⟨Memory.setByte_rising _ _ (Memory.setByte_rising _ _ hp), fun c hc => ?_, fun c hc => ?_⟩
  · rcases mem hc with h | h | h
    · rw [h]; exact highCell_lt a
    · rw [h]; exact lowCell_lt a
    · exact hb c h
  · rcases mem hc with h | h | h
    · simp [h, Memory.byteAt_setWord, lowCell_ne_highCell]
    · simp [h, Memory.byteAt_setWord]
    · rw [Memory.byteAt_setWord]
      split
      · rfl
      · split
        · rfl
        · exact hw c h

/-- Placing words keeps the canonical form. -/
theorem Memory.load_wf {m : Memory} (ws : List Word) (a : Word) (h : Memory.wf m) : Memory.wf (Memory.load m a ws) := by
  induction ws generalizing m a with
  | nil => exact h
  | cons w ws ih => exact ih (a + 1#16) (Memory.setWord_wf a w h)

/-- The memory of the machine after reset has the canonical form. -/
theorem Memory.reset_wf : Memory.wf State.reset.mem := Memory.wf_nil

/-! ### What an access can do -/

/-- Which accesses go to a device. -/
theorem onDevice_iff {cfg : Config} {a : Word} : onDevice cfg a = true ↔ regionKind cfg a = .device := by
  simp [onDevice]

/-- MEM_MAP never stops an access to a device (R36). -/
theorem mapStop_device {cfg : Config} {a : Word} (h : onDevice cfg a = true) (kind : AccessKind) :
    mapStop cfg a kind = none := by
  simp [mapStop, onDevice_iff.1 h]

/-- A read that goes on: a device answers it, or MEM_MAP allows it and the word has a value. -/
theorem State.memRead_ok {s : State} {a v : Word} :
    s.memRead a = .ok v ↔
      onDevice s.cfg a = true ∧ v = Config.freeDeviceWord s.deviceSeen a ∨
        onDevice s.cfg a = false ∧ mapStop s.cfg a .read = none ∧ Memory.wordAt s.mem a = some v := by
  unfold State.memRead
  cases h : onDevice s.cfg a with
  | true => simp [mapStop_device h, eq_comm]
  | false => cases mapStop s.cfg a .read <;> cases Memory.wordAt s.mem a <;> simp

/-- A read that stops, never at a device: MEM_MAP stops it, or the word has no value. -/
theorem State.memRead_error {s : State} {a : Word} {stop : Stop} :
    s.memRead a = .error stop ↔
      onDevice s.cfg a = false ∧
        (mapStop s.cfg a .read = some stop ∨
          mapStop s.cfg a .read = none ∧ Memory.wordAt s.mem a = none ∧ stop = .fault (.uninitialisedRead a)) := by
  unfold State.memRead
  cases h : onDevice s.cfg a with
  | true => simp [mapStop_device h]
  | false => cases mapStop s.cfg a .read <;> cases Memory.wordAt s.mem a <;> simp [eq_comm]

/-- A read asks only for the memory, the parameters and what devices have seen. -/
theorem State.memRead_congr {s t : State} (hm : t.mem = s.mem) (hc : t.cfg = s.cfg) (hd : t.deviceSeen = s.deviceSeen)
    (a : Word) : t.memRead a = s.memRead a := by
  unfold State.memRead
  rw [hm, hc, hd]

/-- Elsewhere than at a device, what a read gives does not depend on an earlier read. -/
theorem State.afterRead_memRead {s : State} {a : Word} (b : Word) (h : onDevice s.cfg a = false) :
    (s.afterRead b).memRead a = s.memRead a := by
  unfold State.memRead
  rw [State.afterRead_cfg, State.afterRead_mem, h]
  rfl

@[simp] theorem State.setReg_memRead (s : State) (r : Reg) (v a : Word) : (s.setReg r v).memRead a = s.memRead a := rfl

@[simp] theorem State.setPc_memRead (s : State) (p a : Word) : (s.setPc p).memRead a = s.memRead a := rfl

@[simp] theorem State.nextWord_memRead (s : State) (a : Word) : s.nextWord.memRead a = s.memRead a := rfl

@[simp] theorem State.setFlags_memRead (s : State) (f : Flags) (a : Word) : (s.setFlags f).memRead a = s.memRead a := rfl

/-- A write that goes on: MEM_MAP allows it, and the state is as before but for the word, or for what a device saw. -/
theorem State.memWrite_ok {s t : State} {a v : Word} :
    s.memWrite a v = .ok t ↔
      mapStop s.cfg a .write = none ∧
        t = if onDevice s.cfg a then s.deviceSees (.write a v) else s.setMem (Memory.setWord s.mem a v) := by
  unfold State.memWrite
  cases mapStop s.cfg a .write <;> simp [@eq_comm _ t]

/-- A write changes only memory and what devices have seen. -/
theorem State.memWrite_state {s t : State} {a v : Word} (h : s.memWrite a v = .ok t) :
    t = { s with mem := t.mem, deviceSeen := t.deviceSeen } := by
  obtain ⟨-, rfl⟩ := State.memWrite_ok.1 h
  split <;> rfl

/-- Every byte outside the written word is as before; at a device, every byte. -/
theorem State.memWrite_byteAt {s t : State} {a v : Word} (h : s.memWrite a v = .ok t) (c : Nat)
    (hc : onDevice s.cfg a = false → c ≠ lowCell a ∧ c ≠ highCell a) :
    Memory.byteAt t.mem c = Memory.byteAt s.mem c := by
  obtain ⟨-, rfl⟩ := State.memWrite_ok.1 h
  cases hd : onDevice s.cfg a with
  | true => rfl
  | false => exact Memory.byteAt_setWord_of_ne s.mem a v c (hc hd).1 (hc hd).2

/-- A write keeps the canonical form of memory. -/
theorem State.memWrite_wf {s t : State} {a v : Word} (h : s.memWrite a v = .ok t) (hw : Memory.wf s.mem) :
    Memory.wf t.mem := by
  obtain ⟨-, rfl⟩ := State.memWrite_ok.1 h
  split
  · exact hw
  · exact Memory.setWord_wf a v hw

/-- A write that stops: MEM_MAP stops it. -/
theorem State.memWrite_error {s : State} {a v : Word} {stop : Stop} :
    s.memWrite a v = .error stop ↔ mapStop s.cfg a .write = some stop := by
  unfold State.memWrite
  cases mapStop s.cfg a .write <;> simp

@[simp] theorem Stop.result_ne_next (stop : Stop) (t : State) : stop.result ≠ .next t := by
  cases stop <;> simp [Stop.result]

/-- A step that goes on after a read had its read go on. -/
theorem State.withRead_next {s t : State} {a : Word} {k : Word → State → Result} :
    s.withRead a k = .next t ↔ ∃ v, s.memRead a = .ok v ∧ k v (s.afterRead a) = .next t := by
  unfold State.withRead
  cases s.memRead a <;> simp

/-- A step that goes on after a write had its write go on. -/
theorem State.withWrite_next {s t : State} {a v : Word} {k : State → Result} :
    s.withWrite a v k = .next t ↔ ∃ u, s.memWrite a v = .ok u ∧ k u = .next t := by
  unfold State.withWrite
  cases s.memWrite a v <;> simp

theorem State.withRead_ok {s : State} {a v : Word} (h : s.memRead a = .ok v) (k : Word → State → Result) :
    s.withRead a k = k v (s.afterRead a) := by
  unfold State.withRead
  rw [h]

theorem State.withRead_error {s : State} {a : Word} {stop : Stop} (h : s.memRead a = .error stop) (k : Word → State → Result) :
    s.withRead a k = stop.result := by
  unfold State.withRead
  rw [h]

theorem State.withWrite_ok {s t : State} {a v : Word} (h : s.memWrite a v = .ok t) (k : State → Result) :
    s.withWrite a v k = k t := by
  unfold State.withWrite
  rw [h]

theorem State.withWrite_error {s : State} {a v : Word} {stop : Stop} (h : s.memWrite a v = .error stop)
    (k : State → Result) : s.withWrite a v k = stop.result := by
  unfold State.withWrite
  rw [h]

end Sys2Proof.Machine
end

