-- ==== Sys2Proof/Laws/Operations.lean ====
section
/-! SUPPORT. What each shared operation can do, said once: operands, loads, stores, class 01, jumps, fetch, step. -/

namespace Sys2Proof.Machine

/-! ### Operands -/

/-- The value of an operand, when its reads go on, and the state after them (R53). -/
def State.readOperand (s : State) : Operand → Except Stop (Word × State)
  | .immediate imm => .ok (imm, s)
  | .register src1 => .ok (s.reg src1, s)
  | .indexed disp src1 src2 =>
    match s.memRead (s.effAddr disp src1 src2) with
    | .ok v => .ok (v, s.afterRead (s.effAddr disp src1 src2))
    | .error stop => .error stop
  | .indirect disp src1 src2 =>
    match s.memRead (s.effAddr disp src1 src2) with
    | .ok ptr =>
      match (s.afterRead (s.effAddr disp src1 src2)).memRead ptr with
      | .ok v => .ok (v, (s.afterRead (s.effAddr disp src1 src2)).afterRead ptr)
      | .error stop => .error stop
    | .error stop => .error stop

/-- `withOperand` is its continuation on the operand's value, or the stop of the first read that fails. -/
theorem State.withOperand_eq (s : State) (o : Operand) (k : Word → State → Result) :
    s.withOperand o k =
      match s.readOperand o with
      | .ok (v, u) => k v u
      | .error stop => stop.result := by
  cases o with
  | immediate imm => rfl
  | register src1 => rfl
  | indexed disp src1 src2 =>
    simp only [State.withOperand, State.readOperand, State.withRead]
    cases s.memRead (s.effAddr disp src1 src2) <;> rfl
  | indirect disp src1 src2 =>
    simp only [State.withOperand, State.readOperand, State.withRead]
    cases s.memRead (s.effAddr disp src1 src2) with
    | error stop => rfl
    | ok ptr =>
      dsimp only
      cases (s.afterRead (s.effAddr disp src1 src2)).memRead ptr <;> rfl

theorem State.withOperand_next {s t : State} {o : Operand} {k : Word → State → Result} :
    s.withOperand o k = .next t ↔ ∃ v u, s.readOperand o = .ok (v, u) ∧ k v u = .next t := by
  rw [State.withOperand_eq]
  cases s.readOperand o <;> simp [Prod.ext_iff]

theorem State.withOperand_ok {s u : State} {o : Operand} {v : Word} (h : s.readOperand o = .ok (v, u))
    (k : Word → State → Result) : s.withOperand o k = k v u := by
  rw [State.withOperand_eq, h]

theorem State.withOperand_error {s : State} {o : Operand} {stop : Stop} (h : s.readOperand o = .error stop)
    (k : Word → State → Result) : s.withOperand o k = stop.result := by
  rw [State.withOperand_eq, h]

/-- Reading an operand changes only what devices have seen. -/
theorem State.readOperand_state {s u : State} {o : Operand} {v : Word} (h : s.readOperand o = .ok (v, u)) :
    u = { s with deviceSeen := u.deviceSeen } := by
  cases o with
  | immediate imm => cases h; rfl
  | register src1 => cases h; rfl
  | indexed disp src1 src2 =>
    simp only [State.readOperand] at h
    split at h <;> cases h
    exact State.afterRead_eq s _
  | indirect disp src1 src2 =>
    simp only [State.readOperand] at h
    split at h
    · split at h <;> cases h
      rw [State.afterRead_eq (s.afterRead _), State.afterRead_eq s]
    · cases h

/-! ### Loads and stores -/

/-- A load goes on exactly when its operand has a value, and then writes it to `dst` and steps past the operand. -/
theorem loadOperand_next {s t : State} {dst : Reg} {o : Operand} :
    loadOperand dst o s = .next t ↔
      ∃ v u, s.readOperand o = .ok (v, u) ∧ t = (u.setReg dst v).pastOperand o := by
  simp [loadOperand, State.withOperand_next, @eq_comm _ t]

/-- A store goes on exactly when MEM_MAP allows the write, and then replaces the word, or shows the write to the device
mapped there, and steps past its displacement. -/
theorem storeAt_next {s t : State} {a : Word} {src : Reg} :
    storeAt a src s = .next t ↔ ∃ u, s.memWrite a (s.reg src) = .ok u ∧ t = u.nextWord := by
  simp [storeAt, State.withWrite_next, @eq_comm _ t]

/-! ### Class 01 and jumps -/

/-- A two-operand instruction goes on exactly when its operand has a value, and then writes result and flags. -/
theorem aluOperand_next {s t : State} {op : AluOp} {dst : Reg} {o : Operand} :
    aluOperand op dst o s = .next t ↔
      ∃ b u, s.readOperand o = .ok (b, u) ∧ t = (u.writeAlu op dst (u.reg dst) b).pastOperand o := by
  simp [aluOperand, State.withOperand_next, @eq_comm _ t]

/-- A jump always goes on, and changes the pc only. -/
theorem jumpIf_next {s t : State} {taken : Bool} {target : Word} :
    jumpIf taken target s = .next t ↔ t = s.setPc (if taken then target else s.pc + 1#16) := by
  cases taken <;> simp [jumpIf, State.nextWord, eq_comm]

/-- Return goes on exactly when the word its register points at can be read, and changes the pc only. -/
theorem execJr_next {s t : State} {lnk : Reg} :
    execJr lnk s = .next t ↔
      ∃ target, s.memRead (s.reg lnk) = .ok target ∧ t = (s.afterRead (s.reg lnk)).setPc target := by
  simp [execJr, State.withRead_next, @eq_comm _ t]

/-- A store through a pointer goes on exactly when the pointer can be read and MEM_MAP allows the write. -/
theorem execSdn_next {s t : State} {disp : Word} {dst1 src : Reg} :
    execSdn disp dst1 src s = .next t ↔
      ∃ ptr u, s.memRead (s.storeAddr disp dst1) = .ok ptr ∧
        (s.afterRead (s.storeAddr disp dst1)).memWrite ptr (s.reg src) = .ok u ∧ t = u.nextWord := by
  simp [execSdn, State.withRead_next, storeAt_next]

/-! ### Decoding the first word -/

/-- A row that a first word selects is a row of the op-code map whose fixed bits the word has (R58). -/
theorem findRow_some {iw : Word} {row : OpRow} (h : findRow iw = some row) :
    row ∈ opTable ∧ iw &&& row.mask = row.value :=
  ⟨List.mem_of_find?_eq_some h, by simpa using List.find?_some h⟩

/-- What the first word decides, when it decides an instruction. -/
theorem decodeFirst_ok {cfg : Config} {iw : Word} {row : OpRow} :
    decodeFirst cfg iw = .ok row ↔ findRow iw = some row ∧ unusedAccepted cfg row iw = true := by
  unfold decodeFirst
  cases hf : findRow iw with
  | none => simp
  | some q =>
    by_cases hu : unusedAccepted cfg q iw = true
    · simp only [hu, if_true, Except.ok.injEq, Option.some.injEq]
      constructor
      · rintro rfl
        exact ⟨rfl, hu⟩
      · exact fun h => h.1
    · simp only [if_neg hu, Option.some.injEq]
      constructor
      · intro h
        cases h
      · rintro ⟨rfl, h⟩
        exact absurd h hu

/-- Every row has one or two words (R50). -/
theorem opTable_words {row : OpRow} (h : row ∈ opTable) : row.words = 1 ∨ row.words = 2 := by
  revert row
  decide

/-! ### Fetch and step -/

/-- What a fetch that succeeds has read, and the state it leaves: the first word, and the second for a two-word row
(R13). -/
theorem State.fetch_ok {s u : State} {i : Instr} (h : s.fetch = .ok (i, u)) :
    ∃ iw row, s.memRead s.pc = .ok iw ∧ decodeFirst s.cfg iw = .ok row ∧
      (row.words = 1 ∧ i = assemble s.cfg row.op iw 0x0000#16 ∧ u = s.afterRead s.pc ∨
        row.words ≠ 1 ∧ ∃ w2, (s.afterRead s.pc).memRead (s.pc + 1#16) = .ok w2 ∧ i = assemble s.cfg row.op iw w2 ∧
          u = (s.afterRead s.pc).afterRead (s.pc + 1#16)) := by
  unfold State.fetch at h
  cases h1 : s.memRead s.pc with
  | error stop => simp [h1] at h
  | ok iw =>
    cases h2 : decodeFirst s.cfg iw with
    | error e => simp [h1, h2] at h
    | ok row =>
      refine ⟨iw, row, rfl, h2, ?_⟩
      by_cases hw : row.words = 1
      · simp only [h1, h2, hw, if_true, Except.ok.injEq, Prod.mk.injEq] at h
        exact .inl ⟨hw, h.1.symm, h.2.symm⟩
      · cases h3 : (s.afterRead s.pc).memRead (s.pc + 1#16) with
        | error stop => simp [h1, h2, hw, h3] at h
        | ok w2 =>
          simp only [h1, h2, h3, if_neg hw, Except.ok.injEq, Prod.mk.injEq] at h
          exact .inr ⟨hw, w2, rfl, h.1.symm, h.2.symm⟩

/-- A fetch changes only what devices have seen. -/
theorem State.fetch_state {s u : State} {i : Instr} (h : s.fetch = .ok (i, u)) :
    u = { s with deviceSeen := u.deviceSeen } := by
  obtain ⟨iw, row, -, -, ⟨-, -, rfl⟩ | ⟨-, w2, -, -, rfl⟩⟩ := State.fetch_ok h
  · exact State.afterRead_eq s _
  · rw [State.afterRead_eq (s.afterRead _), State.afterRead_eq s]

/-- What a step that goes on did: nothing, the run being over, or the execute phase of the fetched instruction. -/
theorem step_next {s t : State} :
    step s = .next t ↔
      s.halted = true ∧ t = s ∨ s.halted = false ∧ ∃ i u, s.fetch = .ok (i, u) ∧ exec i u.nextWord = .next t := by
  unfold step
  cases s.halted with
  | true => simp [eq_comm]
  | false => cases s.fetch <;> simp [Prod.ext_iff]

end Sys2Proof.Machine
end

