-- ==== Sys2Proof/Laws/Exec.lean ====
section
/-! SUPPORT. What the execute phase of any instruction can do, said once, by the shapes of Safety. -/

namespace Sys2Proof.Machine

/-- The relation `OperandIs` is the value that `withOperand` goes on with. -/
theorem operandIs_iff {s : State} {o : Operand} {v : Word} : OperandIs s o v ↔ ∃ u, s.readOperand o = .ok (v, u) := by
  cases o with
  | immediate imm => simp [OperandIs, State.readOperand, eq_comm]
  | register src1 => simp [OperandIs, State.readOperand, eq_comm]
  | indexed disp src1 src2 =>
    simp only [OperandIs, State.readOperand]
    cases s.memRead (s.effAddr disp src1 src2) <;> simp
  | indirect disp src1 src2 =>
    simp only [OperandIs, State.readOperand]
    cases s.memRead (s.effAddr disp src1 src2) with
    | error stop => simp
    | ok ptr => cases h : (s.afterRead (s.effAddr disp src1 src2)).memRead ptr <;> simp [h]

/-- After an operand is read, devices have seen its accesses (R36, R39). -/
theorem readOperand_devicesSee {s u : State} {o : Operand} {v : Word} (h : s.readOperand o = .ok (v, u)) :
    DevicesSee s u (s.operandAccesses o) := by
  cases o with
  | immediate imm => cases h; simp [DevicesSee, State.operandAccesses]
  | register src1 => cases h; simp [DevicesSee, State.operandAccesses]
  | indexed disp src1 src2 =>
    simp only [State.readOperand] at h
    split at h <;> cases h
    simp [DevicesSee, State.operandAccesses, List.filter, Access.atDevice]
    split <;> simp_all
  | indirect disp src1 src2 =>
    simp only [State.readOperand] at h
    split at h
    · split at h <;> cases h
      next ptr hp _ _ =>
        simp [DevicesSee, State.operandAccesses, State.afterPointer, hp, List.filter, Access.atDevice]
        split <;> split <;> simp_all
    · cases h

/-- A load is the shared load of its form. -/
theorem exec_of_loadForm {i : Instr} {dst : Reg} {o : Operand} (h : loadForm i = some (dst, o)) (s : State) :
    exec i s = loadOperand dst o s := by
  cases i <;> simp only [loadForm, Option.some.injEq, Prod.mk.injEq, reduceCtorEq] at h <;> obtain ⟨rfl, rfl⟩ := h <;> rfl

/-- A two-operand instruction of class 01 is the shared one of its form, but for `subi` with SUBI_REVERSED set. -/
theorem exec_of_aluForm {i : Instr} {op : AluOp} {dst : Reg} {o : Operand} (h : aluForm i = some (op, dst, o))
    (s : State) :
    exec i s = aluOperand op dst o s ∨
      s.cfg.subiReversed = true ∧
        ∃ imm, i = .subi dst imm ∧ exec i s = .next (s.writeAlu .sub dst imm (s.reg dst)).nextWord := by
  cases i <;> simp only [aluForm, Option.some.injEq, Prod.mk.injEq, reduceCtorEq] at h <;>
    obtain ⟨rfl, rfl, rfl⟩ := h
  case subi dst imm =>
    cases hr : s.cfg.subiReversed with
    | false => exact .inl (by simp [exec, execSubi, hr])
    | true => exact .inr ⟨rfl, imm, rfl, by simp [exec, execSubi, hr]⟩
  all_goals exact .inl rfl

/-- The flag a conditional jump tests and the value it is taken on; `j` is always taken. -/
def jumpForm (s : State) : Instr → Option (Bool × Word)
  | .j target => some (true, target)
  | .jz target => some (s.flagZ, target)
  | .jnz target => some (!s.flagZ, target)
  | .jc target => some (s.flagC, target)
  | .jnc target => some (!s.flagC, target)
  | .jm target => some (s.flagM, target)
  | .jnm target => some (!s.flagM, target)
  | _ => none

/-- A jump is the shared jump of its form. -/
theorem exec_of_jumpForm {i : Instr} {s : State} {taken : Bool} {target : Word}
    (h : jumpForm s i = some (taken, target)) : exec i s = jumpIf taken target s := by
  cases i <;> simp only [jumpForm, Option.some.injEq, Prod.mk.injEq, reduceCtorEq] at h <;> obtain ⟨rfl, rfl⟩ := h <;> rfl

/-- Every instruction has one of seven shapes. -/
theorem instr_shape (s : State) (i : Instr) :
    (∃ dst o, loadForm i = some (dst, o)) ∨ (∃ disp dst1 src, i = .stx disp dst1 src) ∨
      (∃ disp dst1 src, i = .sdn disp dst1 src) ∨ (∃ op dst o, aluForm i = some (op, dst, o)) ∨ (∃ reg, i = .cmp reg) ∨
      (∃ taken target, jumpForm s i = some (taken, target)) ∨ (∃ lnk disp, i = .jal lnk disp) ∨ ∃ lnk, i = .jr lnk := by
  cases i <;> simp [loadForm, aluForm, jumpForm]

/-- What an instruction that completes did, shape by shape. -/
theorem exec_next {i : Instr} {s t : State} (h : exec i s = .next t) :
    (∃ dst o v u, loadForm i = some (dst, o) ∧ s.readOperand o = .ok (v, u) ∧ t = (u.setReg dst v).pastOperand o) ∨
    (∃ disp dst1 src u, i = .stx disp dst1 src ∧ s.memWrite (s.storeAddr disp dst1) (s.reg src) = .ok u ∧
      t = u.nextWord) ∨
    (∃ disp dst1 src ptr u, i = .sdn disp dst1 src ∧ s.memRead (s.storeAddr disp dst1) = .ok ptr ∧
      (s.afterRead (s.storeAddr disp dst1)).memWrite ptr (s.reg src) = .ok u ∧ t = u.nextWord) ∨
    (∃ op dst o v u a b, aluForm i = some (op, dst, o) ∧ s.readOperand o = .ok (v, u) ∧
      t = (u.writeAlu op dst a b).pastOperand o) ∨
    (∃ reg f, i = .cmp reg ∧ t = s.setFlags f) ∨
    (∃ taken target, jumpForm s i = some (taken, target) ∧ t = s.setPc (if taken then target else s.pc + 1#16)) ∨
    (∃ lnk disp, i = .jal lnk disp ∧ t = (s.setReg lnk (s.pc + 1#16)).setPc (s.pc + disp)) ∨
    ∃ lnk target, i = .jr lnk ∧ s.memRead (s.reg lnk) = .ok target ∧ t = (s.afterRead (s.reg lnk)).setPc target := by
  rcases instr_shape s i with ⟨dst, o, hf⟩ | ⟨disp, dst1, src, rfl⟩ | ⟨disp, dst1, src, rfl⟩ | ⟨op, dst, o, hf⟩ |
    ⟨reg, rfl⟩ | ⟨taken, target, hf⟩ | ⟨lnk, disp, rfl⟩ | ⟨lnk, rfl⟩
  · rw [exec_of_loadForm hf] at h
    obtain ⟨v, u, hv, rfl⟩ := loadOperand_next.1 h
    exact .inl ⟨dst, o, v, u, hf, hv, rfl⟩
  · obtain ⟨u, hm, rfl⟩ := storeAt_next.1 h
    exact .inr (.inl ⟨disp, dst1, src, u, rfl, hm, rfl⟩)
  · obtain ⟨ptr, u, hp, hm, rfl⟩ := execSdn_next.1 h
    exact .inr (.inr (.inl ⟨disp, dst1, src, ptr, u, rfl, hp, hm, rfl⟩))
  · refine .inr (.inr (.inr (.inl ?_)))
    rcases exec_of_aluForm hf s with he | ⟨_, imm, rfl, he⟩
    · rw [he] at h
      obtain ⟨b, u, hb, rfl⟩ := aluOperand_next.1 h
      exact ⟨op, dst, o, b, u, u.reg dst, b, hf, hb, rfl⟩
    · rw [he] at h
      cases h
      exact ⟨.sub, dst, .immediate imm, imm, s, imm, s.reg dst, rfl, rfl, rfl⟩
  · cases h
    exact .inr (.inr (.inr (.inr (.inl ⟨reg, _, rfl, rfl⟩))))
  · rw [exec_of_jumpForm hf] at h
    exact .inr (.inr (.inr (.inr (.inr (.inl ⟨taken, target, hf, jumpIf_next.1 h⟩)))))
  · cases h
    exact .inr (.inr (.inr (.inr (.inr (.inr (.inl ⟨lnk, disp, rfl, rfl⟩))))))
  · obtain ⟨target, ht, rfl⟩ := execJr_next.1 h
    exact .inr (.inr (.inr (.inr (.inr (.inr (.inr ⟨lnk, target, rfl, ht, rfl⟩))))))

end Sys2Proof.Machine
end

