-- ==== Sys2Proof/Laws/PerInstr.lean ====
section
/-! SUPPORT. Facts of every instruction, one lemma a constructor. Family `EncodeRow`: the encoding of an instruction fits
its row of the op-code map. -/

namespace Sys2Proof.Laws

/-- `ws` has as many words as `row` says (R55), and its first word has the row's fixed bits (R58) and 0 in every unused
bit (R57). -/
def FitsRow (cfg : Config) (row : OpRow) (ws : List Word) : Prop :=
  ws.length = row.words ∧
    ∀ iw ∈ ws.head?, iw &&& row.mask = row.value ∧ iw &&& unusedBits cfg row = 0x0000#16

/-- The unused bits of a row depend on the parameters only through STORE_DATA_FIELD. -/
theorem operandBits_eq (cfg : Config) (op : Op) :
    operandBits cfg op = operandBits { storeData := cfg.storeData } op := by
  cases op <;> rfl

/-- The encoding of `i` fits the row of the op-code map that `i` belongs to. -/
def EncodeRow.Statement (i : Instr) : Prop :=
  ∀ cfg : Config, ∃ row ∈ opTable, row.op = i.op ∧ FitsRow cfg row (encode cfg i)

theorem EncodeRow.li (dst : Reg) (imm : Word) : EncodeRow.Statement (.li dst imm) := by
  intro cfg
  refine ⟨⟨.li, 0x0800#16, 0xF8C0#16, 2⟩, by decide, rfl, rfl, ?_⟩
  simp only [encode, List.head?, unusedBits, operandBits, Option.mem_def, Option.some.injEq, forall_eq']
  revert dst
  decide

theorem EncodeRow.lr (dst src1 : Reg) : EncodeRow.Statement (.lr dst src1) := by
  intro cfg
  refine ⟨⟨.lr, 0x0840#16, 0xF8C0#16, 1⟩, by decide, rfl, rfl, ?_⟩
  simp only [encode, List.head?, unusedBits, operandBits, Option.mem_def, Option.some.injEq, forall_eq']
  revert dst src1
  decide

theorem EncodeRow.lx (dst : Reg) (disp : Word) (src1 src2 : Reg) : EncodeRow.Statement (.lx dst disp src1 src2) := by
  intro cfg
  refine ⟨⟨.lx, 0x0880#16, 0xF8C0#16, 2⟩, by decide, rfl, rfl, ?_⟩
  simp only [encode, List.head?, unusedBits, operandBits, Option.mem_def, Option.some.injEq, forall_eq']
  revert dst src1 src2
  decide

theorem EncodeRow.ldn (dst : Reg) (disp : Word) (src1 src2 : Reg) : EncodeRow.Statement (.ldn dst disp src1 src2) := by
  intro cfg
  refine ⟨⟨.ldn, 0x08C0#16, 0xF8C0#16, 2⟩, by decide, rfl, rfl, ?_⟩
  simp only [encode, List.head?, unusedBits, operandBits, Option.mem_def, Option.some.injEq, forall_eq']
  revert dst src1 src2
  decide

theorem EncodeRow.stx (disp : Word) (dst1 src : Reg) : EncodeRow.Statement (.stx disp dst1 src) := by
  intro cfg
  refine ⟨⟨.stx, 0x1080#16, 0xF8C0#16, 2⟩, by decide, rfl, rfl, ?_⟩
  simp only [encode, List.head?, unusedBits, operandBits, storeDataLo, Option.mem_def, Option.some.injEq, forall_eq']
  cases cfg.storeData <;> revert dst1 src <;> decide

theorem EncodeRow.sdn (disp : Word) (dst1 src : Reg) : EncodeRow.Statement (.sdn disp dst1 src) := by
  intro cfg
  refine ⟨⟨.sdn, 0x10C0#16, 0xF8C0#16, 2⟩, by decide, rfl, rfl, ?_⟩
  simp only [encode, List.head?, unusedBits, operandBits, storeDataLo, Option.mem_def, Option.some.injEq, forall_eq']
  cases cfg.storeData <;> revert dst1 src <;> decide

theorem EncodeRow.addi (dst : Reg) (imm : Word) : EncodeRow.Statement (.addi dst imm) := by
  intro cfg
  refine ⟨⟨.addi, 0x4000#16, 0xF8C0#16, 2⟩, by decide, rfl, rfl, ?_⟩
  simp only [encode, List.head?, unusedBits, operandBits, Option.mem_def, Option.some.injEq, forall_eq']
  revert dst
  decide

theorem EncodeRow.addr (dst src1 : Reg) : EncodeRow.Statement (.addr dst src1) := by
  intro cfg
  refine ⟨⟨.addr, 0x4040#16, 0xF8C0#16, 1⟩, by decide, rfl, rfl, ?_⟩
  simp only [encode, List.head?, unusedBits, operandBits, Option.mem_def, Option.some.injEq, forall_eq']
  revert dst src1
  decide

theorem EncodeRow.addx (dst : Reg) (disp : Word) (src1 src2 : Reg) : EncodeRow.Statement (.addx dst disp src1 src2) := by
  intro cfg
  refine ⟨⟨.addx, 0x4080#16, 0xF8C0#16, 2⟩, by decide, rfl, rfl, ?_⟩
  simp only [encode, List.head?, unusedBits, operandBits, Option.mem_def, Option.some.injEq, forall_eq']
  revert dst src1 src2
  decide

theorem EncodeRow.addn (dst : Reg) (disp : Word) (src1 src2 : Reg) : EncodeRow.Statement (.addn dst disp src1 src2) := by
  intro cfg
  refine ⟨⟨.addn, 0x40C0#16, 0xF8C0#16, 2⟩, by decide, rfl, rfl, ?_⟩
  simp only [encode, List.head?, unusedBits, operandBits, Option.mem_def, Option.some.injEq, forall_eq']
  revert dst src1 src2
  decide

theorem EncodeRow.subi (dst : Reg) (imm : Word) : EncodeRow.Statement (.subi dst imm) := by
  intro cfg
  refine ⟨⟨.subi, 0x4800#16, 0xF8C0#16, 2⟩, by decide, rfl, rfl, ?_⟩
  simp only [encode, List.head?, unusedBits, operandBits, Option.mem_def, Option.some.injEq, forall_eq']
  revert dst
  decide

theorem EncodeRow.subr (dst src1 : Reg) : EncodeRow.Statement (.subr dst src1) := by
  intro cfg
  refine ⟨⟨.subr, 0x4840#16, 0xF8C0#16, 1⟩, by decide, rfl, rfl, ?_⟩
  simp only [encode, List.head?, unusedBits, operandBits, Option.mem_def, Option.some.injEq, forall_eq']
  revert dst src1
  decide

theorem EncodeRow.subx (dst : Reg) (disp : Word) (src1 src2 : Reg) : EncodeRow.Statement (.subx dst disp src1 src2) := by
  intro cfg
  refine ⟨⟨.subx, 0x4880#16, 0xF8C0#16, 2⟩, by decide, rfl, rfl, ?_⟩
  simp only [encode, List.head?, unusedBits, operandBits, Option.mem_def, Option.some.injEq, forall_eq']
  revert dst src1 src2
  decide

theorem EncodeRow.subn (dst : Reg) (disp : Word) (src1 src2 : Reg) : EncodeRow.Statement (.subn dst disp src1 src2) := by
  intro cfg
  refine ⟨⟨.subn, 0x48C0#16, 0xF8C0#16, 2⟩, by decide, rfl, rfl, ?_⟩
  simp only [encode, List.head?, unusedBits, operandBits, Option.mem_def, Option.some.injEq, forall_eq']
  revert dst src1 src2
  decide

theorem EncodeRow.andi (dst : Reg) (imm : Word) : EncodeRow.Statement (.andi dst imm) := by
  intro cfg
  refine ⟨⟨.andi, 0x5000#16, 0xF8C0#16, 2⟩, by decide, rfl, rfl, ?_⟩
  simp only [encode, List.head?, unusedBits, operandBits, Option.mem_def, Option.some.injEq, forall_eq']
  revert dst
  decide

theorem EncodeRow.andr (dst src1 : Reg) : EncodeRow.Statement (.andr dst src1) := by
  intro cfg
  refine ⟨⟨.andr, 0x5040#16, 0xF8C0#16, 1⟩, by decide, rfl, rfl, ?_⟩
  simp only [encode, List.head?, unusedBits, operandBits, Option.mem_def, Option.some.injEq, forall_eq']
  revert dst src1
  decide

theorem EncodeRow.andx (dst : Reg) (disp : Word) (src1 src2 : Reg) : EncodeRow.Statement (.andx dst disp src1 src2) := by
  intro cfg
  refine ⟨⟨.andx, 0x5080#16, 0xF8C0#16, 2⟩, by decide, rfl, rfl, ?_⟩
  simp only [encode, List.head?, unusedBits, operandBits, Option.mem_def, Option.some.injEq, forall_eq']
  revert dst src1 src2
  decide

theorem EncodeRow.andn (dst : Reg) (disp : Word) (src1 src2 : Reg) : EncodeRow.Statement (.andn dst disp src1 src2) := by
  intro cfg
  refine ⟨⟨.andn, 0x50C0#16, 0xF8C0#16, 2⟩, by decide, rfl, rfl, ?_⟩
  simp only [encode, List.head?, unusedBits, operandBits, Option.mem_def, Option.some.injEq, forall_eq']
  revert dst src1 src2
  decide

theorem EncodeRow.ori (dst : Reg) (imm : Word) : EncodeRow.Statement (.ori dst imm) := by
  intro cfg
  refine ⟨⟨.ori, 0x5800#16, 0xF8C0#16, 2⟩, by decide, rfl, rfl, ?_⟩
  simp only [encode, List.head?, unusedBits, operandBits, Option.mem_def, Option.some.injEq, forall_eq']
  revert dst
  decide

theorem EncodeRow.orr (dst src1 : Reg) : EncodeRow.Statement (.orr dst src1) := by
  intro cfg
  refine ⟨⟨.orr, 0x5840#16, 0xF8C0#16, 1⟩, by decide, rfl, rfl, ?_⟩
  simp only [encode, List.head?, unusedBits, operandBits, Option.mem_def, Option.some.injEq, forall_eq']
  revert dst src1
  decide

theorem EncodeRow.orx (dst : Reg) (disp : Word) (src1 src2 : Reg) : EncodeRow.Statement (.orx dst disp src1 src2) := by
  intro cfg
  refine ⟨⟨.orx, 0x5880#16, 0xF8C0#16, 2⟩, by decide, rfl, rfl, ?_⟩
  simp only [encode, List.head?, unusedBits, operandBits, Option.mem_def, Option.some.injEq, forall_eq']
  revert dst src1 src2
  decide

theorem EncodeRow.orn (dst : Reg) (disp : Word) (src1 src2 : Reg) : EncodeRow.Statement (.orn dst disp src1 src2) := by
  intro cfg
  refine ⟨⟨.orn, 0x58C0#16, 0xF8C0#16, 2⟩, by decide, rfl, rfl, ?_⟩
  simp only [encode, List.head?, unusedBits, operandBits, Option.mem_def, Option.some.injEq, forall_eq']
  revert dst src1 src2
  decide

theorem EncodeRow.cmp (reg : Reg) : EncodeRow.Statement (.cmp reg) := by
  intro cfg
  refine ⟨⟨.cmp, 0x6000#16, 0xF800#16, 1⟩, by decide, rfl, rfl, ?_⟩
  simp only [encode, List.head?, unusedBits, operandBits, Option.mem_def, Option.some.injEq, forall_eq']
  revert reg
  decide

theorem EncodeRow.j (target : Word) : EncodeRow.Statement (.j target) := by
  intro cfg
  refine ⟨⟨.j, 0x8800#16, 0xF800#16, 2⟩, by decide, rfl, rfl, ?_⟩
  simp only [encode, List.head?, unusedBits, operandBits, Option.mem_def, Option.some.injEq, forall_eq']
  decide

theorem EncodeRow.jz (target : Word) : EncodeRow.Statement (.jz target) := by
  intro cfg
  refine ⟨⟨.jz, 0x9000#16, 0xF800#16, 2⟩, by decide, rfl, rfl, ?_⟩
  simp only [encode, List.head?, unusedBits, operandBits, Option.mem_def, Option.some.injEq, forall_eq']
  decide

theorem EncodeRow.jnz (target : Word) : EncodeRow.Statement (.jnz target) := by
  intro cfg
  refine ⟨⟨.jnz, 0x9800#16, 0xF800#16, 2⟩, by decide, rfl, rfl, ?_⟩
  simp only [encode, List.head?, unusedBits, operandBits, Option.mem_def, Option.some.injEq, forall_eq']
  decide

theorem EncodeRow.jc (target : Word) : EncodeRow.Statement (.jc target) := by
  intro cfg
  refine ⟨⟨.jc, 0xA000#16, 0xF800#16, 2⟩, by decide, rfl, rfl, ?_⟩
  simp only [encode, List.head?, unusedBits, operandBits, Option.mem_def, Option.some.injEq, forall_eq']
  decide

theorem EncodeRow.jnc (target : Word) : EncodeRow.Statement (.jnc target) := by
  intro cfg
  refine ⟨⟨.jnc, 0xA800#16, 0xF800#16, 2⟩, by decide, rfl, rfl, ?_⟩
  simp only [encode, List.head?, unusedBits, operandBits, Option.mem_def, Option.some.injEq, forall_eq']
  decide

theorem EncodeRow.jm (target : Word) : EncodeRow.Statement (.jm target) := by
  intro cfg
  refine ⟨⟨.jm, 0xB000#16, 0xF800#16, 2⟩, by decide, rfl, rfl, ?_⟩
  simp only [encode, List.head?, unusedBits, operandBits, Option.mem_def, Option.some.injEq, forall_eq']
  decide

theorem EncodeRow.jnm (target : Word) : EncodeRow.Statement (.jnm target) := by
  intro cfg
  refine ⟨⟨.jnm, 0xB800#16, 0xF800#16, 2⟩, by decide, rfl, rfl, ?_⟩
  simp only [encode, List.head?, unusedBits, operandBits, Option.mem_def, Option.some.injEq, forall_eq']
  decide

theorem EncodeRow.jal (lnk : Reg) (disp : Word) : EncodeRow.Statement (.jal lnk disp) := by
  intro cfg
  refine ⟨⟨.jal, 0xE000#16, 0xE000#16, 2⟩, by decide, rfl, rfl, ?_⟩
  simp only [encode, List.head?, unusedBits, operandBits, Option.mem_def, Option.some.injEq, forall_eq']
  revert lnk
  decide

theorem EncodeRow.jr (lnk : Reg) : EncodeRow.Statement (.jr lnk) := by
  intro cfg
  refine ⟨⟨.jr, 0xC000#16, 0xE000#16, 1⟩, by decide, rfl, rfl, ?_⟩
  simp only [encode, List.head?, unusedBits, operandBits, Option.mem_def, Option.some.injEq, forall_eq']
  revert lnk
  decide

end Sys2Proof.Laws
end

