-- ==== Sys2Proof/Tests/Slice0.lean ====
section
/-! SUPPORT. Tests. Expected values are those of spec/95_test_vectors.md, whose row is named (L1, S4, A7, ...), or are
worked out by hand from the rule named. The last part shows, for each statement that has hypotheses, a state and
operands that meet them. -/

namespace Sys2Proof.Tests

open Sys2Proof.Machine

/-! ### Building small states, and looking at one step -/

/-- A machine at `pc` with the words `ws` there, the registers of `rs` and the memory words of `ms`. -/
def machine (pc : Word) (ws : List Word) (rs : List (Reg × Word)) (ms : List (Word × Word)) : State :=
  rs.foldl (fun s p => s.setReg p.1 p.2)
    { State.reset with
      pc := pc
      mem := Memory.load (ms.foldl (fun m p => Memory.setWord m p.1 p.2) []) pc ws }

/-- The same machine with the flags `z`, `c`, `m`. -/
def withFlags (z c m : Bool) (s : State) : State := s.setFlags ⟨z, c, m⟩

/-- The pc, register `r` and the three flags after one step. -/
def regAfter (r : Reg) (s : State) : Option (Word × Word × Flags) :=
  (nextOf (step s)).map fun t => (t.pc, t.reg r, t.flags)

/-- The pc and the memory word at `a` after one step. -/
def wordAfter (a : Word) (s : State) : Option (Word × Option Word) :=
  (nextOf (step s)).map fun t => (t.pc, Memory.wordAt t.mem a)

/-- The pc after one step. -/
def pcAfter (s : State) : Option Word := (nextOf (step s)).map fun t => t.pc

/-- No flag set. -/
def noFlags : Flags := ⟨false, false, false⟩

/-- The decoder's answer, or none. -/
def decoded (ws : List Word) : Option (Instr × List Word) := (decode Config.default ws).toOption

/-- The default parameters with UNUSED_FIELD_POLICY = refuse. -/
def refusing : Config := { Config.default with unusedFields := .refuse }

/-- A MEM_MAP with read-only memory at 0 to 15, nothing at 16 to 31, and a device at the last word. -/
def mapped : Config :=
  { Config.default with memMap := [⟨0, 16, .readOnly⟩, ⟨16, 16, .unbacked⟩, ⟨65535, 1, .device⟩] }

/-! ### Well-formedness: each check refuses an ill-formed term, and accepts a good one -/

theorem test_wf_refuses_no_word : Encoded.wf [] = false := by decide
theorem test_wf_refuses_class00_ins000 : Encoded.wf [0x07FF#16] = false := by decide
theorem test_wf_refuses_store_add00 : Encoded.wf [0x103F#16, 0x0000#16] = false := by decide
theorem test_wf_refuses_store_add01 : Encoded.wf [0x1040#16] = false := by decide
theorem test_wf_refuses_class00_ins011_up :
    Encoded.wf [0x1800#16] = false ∧ Encoded.wf [0x3FFF#16] = false := by decide
theorem test_wf_refuses_class01_alu101_up :
    Encoded.wf [0x6800#16] = false ∧ Encoded.wf [0x7FFF#16] = false := by decide
theorem test_wf_refuses_class10_typ000 :
    Encoded.wf [0x8000#16, 0x0000#16] = false ∧ Encoded.wf [0x87FF#16, 0x0000#16] = false := by decide
theorem test_wf_refuses_missing_second_word : Encoded.wf [0x0900#16] = false := by decide
theorem test_wf_refuses_extra_word : Encoded.wf [0x0950#16, 0x0000#16] = false := by decide
theorem test_wf_accepts : Encoded.wf [0x0900#16, 0x0064#16] = true ∧ Encoded.wf [0x0950#16] = true ∧
    Encoded.wf [0x1080#16, 0x0000#16] = true ∧ Encoded.wf [0x67FF#16] = true := by decide
theorem test_region_refuses_empty : Region.wf ⟨7, 0, .readOnly⟩ = false := by decide
theorem test_region_refuses_past_end : Region.wf ⟨65535, 2, .readOnly⟩ = false := by decide
theorem test_region_accepts_last_word : Region.wf ⟨65535, 1, .readOnly⟩ = true := by decide
theorem test_map_refuses_bad_region : Config.wf { memMap := [⟨0, 0, .unbacked⟩] } = false := by decide
theorem test_map_refuses_overlap :
    Config.wf { memMap := [⟨0, 16, .readOnly⟩, ⟨15, 1, .device⟩] } = false := by decide
theorem test_map_accepts : Config.wf mapped = true ∧ Config.wf Config.default = true := by decide

/-! ### Decoding: words written out from the drawn encodings (R51, R58; the example lines of 95_test_vectors.md part 1) -/

theorem test_decode_li : decoded [0x0900#16, 0x0064#16] = some (.li 1 100#16, []) := by decide
theorem test_decode_lr : decoded [0x0950#16] = some (.lr 1 2, []) := by decide
theorem test_decode_lx : decoded [0x0993#16, 0x000A#16] = some (.lx 1 10#16 2 3, []) := by decide
theorem test_decode_ldn : decoded [0x09D3#16, 0x000A#16] = some (.ldn 1 10#16 2 3, []) := by decide
theorem test_decode_stx : decoded [0x1390#16, 0xFFFB#16] = some (.stx 0xFFFB#16 2 3, []) := by decide
theorem test_decode_sdn : decoded [0x13D0#16, 0xFFFB#16] = some (.sdn 0xFFFB#16 2 3, []) := by decide
theorem test_decode_addi : decoded [0x4100#16, 0x0005#16] = some (.addi 1 5#16, []) := by decide
theorem test_decode_addr : decoded [0x4150#16] = some (.addr 1 2, []) := by decide
theorem test_decode_addx : decoded [0x4193#16, 0x000A#16] = some (.addx 1 10#16 2 3, []) := by decide
theorem test_decode_addn : decoded [0x41D3#16, 0x000A#16] = some (.addn 1 10#16 2 3, []) := by decide
theorem test_decode_subi : decoded [0x4900#16, 0x0005#16] = some (.subi 1 5#16, []) := by decide
theorem test_decode_subr : decoded [0x4950#16] = some (.subr 1 2, []) := by decide
theorem test_decode_subx : decoded [0x4993#16, 0x000A#16] = some (.subx 1 10#16 2 3, []) := by decide
theorem test_decode_subn : decoded [0x49D3#16, 0x000A#16] = some (.subn 1 10#16 2 3, []) := by decide
theorem test_decode_andi : decoded [0x5100#16, 0x0005#16] = some (.andi 1 5#16, []) := by decide
theorem test_decode_andr : decoded [0x5150#16] = some (.andr 1 2, []) := by decide
theorem test_decode_andx : decoded [0x5193#16, 0x000A#16] = some (.andx 1 10#16 2 3, []) := by decide
theorem test_decode_andn : decoded [0x51D3#16, 0x000A#16] = some (.andn 1 10#16 2 3, []) := by decide
theorem test_decode_ori : decoded [0x5900#16, 0x0005#16] = some (.ori 1 5#16, []) := by decide
theorem test_decode_orr : decoded [0x5950#16] = some (.orr 1 2, []) := by decide
theorem test_decode_orx : decoded [0x5993#16, 0x000A#16] = some (.orx 1 10#16 2 3, []) := by decide
theorem test_decode_orn : decoded [0x59D3#16, 0x000A#16] = some (.orn 1 10#16 2 3, []) := by decide
theorem test_decode_cmp : decoded [0x6003#16] = some (.cmp 3, []) := by decide
theorem test_decode_j : decoded [0x8800#16, 0x0100#16] = some (.j 0x0100#16, []) := by decide
theorem test_decode_jz : decoded [0x9000#16, 0x0100#16] = some (.jz 0x0100#16, []) := by decide
theorem test_decode_jnz : decoded [0x9800#16, 0x0100#16] = some (.jnz 0x0100#16, []) := by decide
theorem test_decode_jc : decoded [0xA000#16, 0x0100#16] = some (.jc 0x0100#16, []) := by decide
theorem test_decode_jnc : decoded [0xA800#16, 0x0100#16] = some (.jnc 0x0100#16, []) := by decide
theorem test_decode_jm : decoded [0xB000#16, 0x0100#16] = some (.jm 0x0100#16, []) := by decide
theorem test_decode_jnm : decoded [0xB800#16, 0x0100#16] = some (.jnm 0x0100#16, []) := by decide
theorem test_decode_jal : decoded [0xE001#16, 0x0064#16] = some (.jal 1 100#16, []) := by decide
theorem test_decode_jr : decoded [0xC003#16] = some (.jr 3, []) := by decide

/-- Every register field at its last value (section 2.8: 0x0FFF, 0x17FF, 0x5FC1, 0xDFFF, 0xFFFF). -/
theorem test_decode_register_fields :
    decoded [0x0FFF#16, 0x0000#16] = some (.ldn 7 0#16 7 7, []) ∧
      decoded [0x17FF#16, 0x0000#16] = some (.sdn 0#16 7 7, []) ∧
      decoded [0x5FC1#16, 0x0000#16] = some (.orn 7 0#16 0 1, []) ∧
      decoded [0xDFFF#16] = some (.jr 7, []) ∧
      decoded [0xFFFF#16, 0x0000#16] = some (.jal 7 0#16, []) := by decide

/-- Unused bits are ignored under the default policy (L4, S3, B15, J3, C10). -/
theorem test_decode_ignores_unused_bits :
    decoded [0x093F#16, 0x0064#16] = some (.li 1 100#16, []) ∧
      decoded [0x128F#16, 0x0000#16] = some (.stx 0#16 1 2, []) ∧
      decoded [0x67FB#16] = some (.cmp 3, []) ∧
      decoded [0x8FFF#16, 0x1234#16] = some (.j 0x1234#16, []) ∧
      decoded [0xDFFE#16] = some (.jr 6, []) := by decide

/-- Reserved words are rejected by name, with or without a word after them (R60). -/
theorem test_decode_rejects_reserved :
    decode Config.default [0x107F#16, 0x0000#16] = .error (.reserved 0x107F#16) ∧
      decode Config.default [0x2000#16] = .error (.reserved 0x2000#16) := ⟨rfl, rfl⟩

theorem test_decode_rejects_short_input :
    decode Config.default [] = .error .noWord ∧
      decode Config.default [0x0900#16] = .error (.noSecondWord 0x0900#16) := ⟨rfl, rfl⟩

/-- Under UNUSED_FIELD_POLICY = refuse, all ones stand (the figures of the source), a mixture does not (R57). -/
theorem test_decode_refuse_policy :
    decode refusing [0x413F#16, 0x0005#16] = .ok (.addi 1 5#16, []) ∧
      decode refusing [0x4101#16, 0x0005#16] = .error (.unusedFieldBits 0x4101#16) := ⟨rfl, rfl⟩

/-- STORE_DATA_FIELD = 2:0 takes the stored register from the low field (D11). -/
theorem test_decode_store_data_field :
    decode { Config.default with storeData := .bits2to0 } [0x128B#16, 0x0000#16] = .ok (.stx 0#16 1 3, []) := rfl

theorem test_encode_examples :
    encode Config.default (.lx 3 10#16 1 2) = [0x0B8A#16, 0x000A#16] ∧
      encode Config.default (.stx 0xFFFB#16 1 2) = [0x1288#16, 0xFFFB#16] ∧
      encode Config.default (.jal 7 100#16) = [0xE007#16, 0x0064#16] := by decide

theorem test_table_word : decodeTableWord 32 0x000A0B8A = some (.lx 3 10#16 1 2) ∧
    decodeTableWord 16 0x0B8A = some (.lx 3 0#16 1 2) := by decide

/-! ### Loads and stores -/

/-- L2: the second word at 0xFFFF, the pc wraps. -/
theorem test_li_pc_wraps :
    regAfter 7 (machine 0xFFFE#16 [0x0F00#16, 0x0000#16] [(7, 5#16)] []) = some (0x0000#16, 0#16, noFlags) := by decide

/-- L3: the second word of an instruction at 0xFFFF is at 0x0000. -/
theorem test_li_across_top :
    regAfter 3 (machine 0xFFFF#16 [0x0B00#16, 0x1234#16] [] []) = some (0x0001#16, 0x1234#16, noFlags) := by decide

/-- L5: a register copy keeps the flags. -/
theorem test_lr_keeps_flags :
    regAfter 1 (withFlags true false true (machine 0x0040#16 [0x0968#16] [(5, 0xBEEF#16)] [])) =
      some (0x0041#16, 0xBEEF#16, ⟨true, false, true⟩) := by decide

/-- L14: the address sum of two carries wraps. -/
theorem test_lx_address_wraps :
    regAfter 1 (machine 0x0040#16 [0x0993#16, 0xFFFF#16] [(2, 0xFFFF#16), (3, 3#16)] [(0x0001#16, 0x0A0A#16)]) =
      some (0x0042#16, 0x0A0A#16, noFlags) := by decide

/-- L12: the destination is also the base, the address uses its old value. -/
theorem test_lx_into_its_base :
    regAfter 2 (machine 0x0040#16 [0x0A93#16, 0x0001#16] [(2, 0x0200#16)] [(0x0201#16, 0x0ABC#16)]) =
      some (0x0042#16, 0x0ABC#16, noFlags) := by decide

/-- L15 -/
theorem test_ldn :
    regAfter 1 (machine 0x0040#16 [0x09D3#16, 0x000A#16] [(2, 0x0100#16), (3, 2#16)]
      [(0x010C#16, 0x0300#16), (0x0300#16, 0x7777#16)]) = some (0x0042#16, 0x7777#16, noFlags) := by decide

/-- L18: the word the pointer points at was never defined. -/
theorem test_ldn_undefined_target :
    faultOf (step (machine 0x0040#16 [0x09D3#16, 0x0000#16] [(2, 0x0100#16)] [(0x0100#16, 0x0300#16)])) =
      some (.uninitialisedRead 0x0300#16) := by decide

/-- S4: a store over its own second word, which was read before. -/
theorem test_stx_over_its_own_second_word :
    wordAfter 0x0041#16 (machine 0x0040#16 [0x1280#16, 0x0041#16] [(2, 0x9999#16)] []) =
      some (0x0042#16, some 0x9999#16) := by decide

/-- S6: the store address wraps to 0x0000. -/
theorem test_stx_address_wraps :
    wordAfter 0x0000#16 (machine 0x0040#16 [0x1288#16, 0x0001#16] [(1, 0xFFFF#16), (2, 1#16)] []) =
      some (0x0042#16, some 0x0001#16) := by decide

/-- S8: the word pointed at is written. -/
theorem test_sdn :
    wordAfter 0x0300#16 (machine 0x0040#16 [0x12C8#16, 0xFFFB#16] [(1, 0x0105#16), (2, 0xABCD#16)]
      [(0x0100#16, 0x0300#16)]) = some (0x0042#16, some 0xABCD#16) := by decide

/-- S9: a pointer to itself is overwritten. -/
theorem test_sdn_over_its_pointer :
    wordAfter 0x0100#16 (machine 0x0040#16 [0x12C8#16, 0x0000#16] [(1, 0x0100#16), (2, 5#16)]
      [(0x0100#16, 0x0100#16)]) = some (0x0042#16, some 0x0005#16) := by decide

/-! ### Class 01 -/

/-- A2: the sum wraps to zero, with a carry. -/
theorem test_addi_wraps :
    regAfter 1 (machine 0x0040#16 [0x4100#16, 0x0001#16] [(1, 0xFFFF#16)] []) =
      some (0x0042#16, 0#16, ⟨true, true, false⟩) := by decide

/-- A3: a signed overflow sets M and not C. -/
theorem test_addi_signed_overflow :
    regAfter 1 (machine 0x0040#16 [0x4100#16, 0x7FFF#16] [(1, 1#16)] []) =
      some (0x0042#16, 0x8000#16, ⟨false, false, true⟩) := by decide

/-- A7: doubling, source and destination the same. -/
theorem test_addr_same_register :
    regAfter 1 (machine 0x0040#16 [0x4148#16] [(1, 0x8000#16)] []) =
      some (0x0041#16, 0#16, ⟨true, true, false⟩) := by decide

/-- A9: the destination is also the base. -/
theorem test_addx_into_its_base :
    regAfter 2 (machine 0x0040#16 [0x4293#16, 0x0000#16] [(2, 0x0100#16)] [(0x0100#16, 0xFF00#16)]) =
      some (0x0042#16, 0#16, ⟨true, true, false⟩) := by decide

/-- A10 -/
theorem test_addn :
    regAfter 1 (machine 0x0040#16 [0x41D3#16, 0x000A#16] [(1, 0x7000#16), (2, 0x0100#16), (3, 2#16)]
      [(0x010C#16, 0x0300#16), (0x0300#16, 0x1000#16)]) = some (0x0042#16, 0x8000#16, ⟨false, false, true⟩) := by decide

/-- A11: register less immediate, with a borrow. -/
theorem test_subi_borrows :
    regAfter 1 (machine 0x0040#16 [0x4900#16, 0x0005#16] [(1, 3#16)] []) =
      some (0x0042#16, 0xFFFE#16, ⟨false, true, true⟩) := by decide

/-- The same under SUBI_REVERSED: 5 less 3 (D8). -/
theorem test_subi_reversed :
    regAfter 1 { machine 0x0040#16 [0x4900#16, 0x0005#16] [(1, 3#16)] [] with
      cfg := { Config.default with subiReversed := true } } = some (0x0042#16, 2#16, noFlags) := by decide

/-- A16: unsigned less-than. -/
theorem test_subr_borrows :
    regAfter 1 (machine 0x0040#16 [0x4950#16] [(1, 3#16), (2, 5#16)] []) =
      some (0x0041#16, 0xFFFE#16, ⟨false, true, true⟩) := by decide

/-- A15 under the other flag rule of D29: C is the complement of the borrow. -/
theorem test_subr_not_borrow :
    regAfter 1 { machine 0x0040#16 [0x4950#16] [(1, 5#16), (2, 3#16)] [] with
      cfg := { Config.default with flagRule := .notBorrow } } = some (0x0041#16, 2#16, ⟨false, true, false⟩) := by decide

/-- A18 -/
theorem test_subx :
    regAfter 1 (machine 0x0040#16 [0x4993#16, 0x000A#16] [(1, 0x0100#16), (2, 0x0100#16), (3, 2#16)]
      [(0x010C#16, 0x00FF#16)]) = some (0x0042#16, 1#16, noFlags) := by decide

/-- A19: 0 less 0x8000. -/
theorem test_subn :
    regAfter 1 (machine 0x0040#16 [0x49D3#16, 0x000A#16] [(2, 0x0100#16), (3, 2#16)]
      [(0x010C#16, 0x0300#16), (0x0300#16, 0x8000#16)]) = some (0x0042#16, 0x8000#16, ⟨false, true, true⟩) := by decide

/-- B1: a logical operation clears C. -/
theorem test_andi_clears_carry :
    regAfter 1 (withFlags true true true (machine 0x0040#16 [0x5100#16, 0x00FF#16] [(1, 0x0F0F#16)] [])) =
      some (0x0042#16, 0x000F#16, noFlags) := by decide

/-- B3: the value stays, the flags are those of it. -/
theorem test_andr_same_register :
    regAfter 1 (machine 0x0040#16 [0x5148#16] [(1, 0x8001#16)] []) =
      some (0x0041#16, 0x8001#16, ⟨false, false, true⟩) := by decide

/-- B5 -/
theorem test_andx :
    regAfter 1 (machine 0x0040#16 [0x5193#16, 0x000A#16] [(1, 0xF0F0#16), (2, 0x0100#16), (3, 2#16)]
      [(0x010C#16, 0x3C3C#16)]) = some (0x0042#16, 0x3030#16, noFlags) := by decide

/-- B6: a zero result. -/
theorem test_andn :
    regAfter 1 (machine 0x0040#16 [0x51D3#16, 0x000A#16] [(1, 0xF0F0#16), (2, 0x0100#16), (3, 2#16)]
      [(0x010C#16, 0x0300#16), (0x0300#16, 0x0F0F#16)]) = some (0x0042#16, 0#16, ⟨true, false, false⟩) := by decide

/-- B8 -/
theorem test_ori :
    regAfter 1 (machine 0x0040#16 [0x5900#16, 0x8000#16] [(1, 1#16)] []) =
      some (0x0042#16, 0x8001#16, ⟨false, false, true⟩) := by decide

/-- B9: a zero result. -/
theorem test_orr :
    regAfter 1 (machine 0x0040#16 [0x5950#16] [] []) = some (0x0041#16, 0#16, ⟨true, false, false⟩) := by decide

/-- B10 -/
theorem test_orx :
    regAfter 1 (machine 0x0040#16 [0x5993#16, 0x000A#16] [(1, 0x00F0#16), (2, 0x0100#16), (3, 2#16)]
      [(0x010C#16, 0x0F00#16)]) = some (0x0042#16, 0x0FF0#16, noFlags) := by decide

/-- B11 -/
theorem test_orn :
    regAfter 1 (machine 0x0040#16 [0x59D3#16, 0x000A#16] [(1, 0x8000#16), (2, 0x0100#16), (3, 2#16)]
      [(0x010C#16, 0x0300#16), (0x0300#16, 0x0001#16)]) = some (0x0042#16, 0x8001#16, ⟨false, false, true⟩) := by decide

/-- B13: comparing zero rewrites all three flags and keeps the register. -/
theorem test_cmp_zero :
    regAfter 3 (withFlags false true true (machine 0x0040#16 [0x6003#16] [] [])) =
      some (0x0041#16, 0#16, ⟨true, false, false⟩) := by decide

/-- B12: the sign of the register. -/
theorem test_cmp_minus :
    regAfter 3 (machine 0x0040#16 [0x6003#16] [(3, 0x8000#16)] []) =
      some (0x0041#16, 0x8000#16, ⟨false, false, true⟩) := by decide

/-! ### Jumps, call and return -/

/-- J4: the address word of a jump at 0xFFFF is at 0x0000. -/
theorem test_j_across_top : pcAfter (machine 0xFFFF#16 [0x8800#16, 0x0002#16] [] []) = some 0x0002#16 := by decide

/-- J5, J17: taken, and not taken at the top of memory. -/
theorem test_jz :
    pcAfter (withFlags true false false (machine 0x0040#16 [0x9000#16, 0x0100#16] [] [])) = some 0x0100#16 ∧
      pcAfter (withFlags false true true (machine 0xFFFE#16 [0x9000#16, 0x0100#16] [] [])) = some 0x0000#16 := by decide

/-- J7, J8 -/
theorem test_jnz :
    pcAfter (withFlags true false false (machine 0x0040#16 [0x9800#16, 0x0100#16] [] [])) = some 0x0042#16 ∧
      pcAfter (withFlags false true true (machine 0x0040#16 [0x9800#16, 0x0100#16] [] [])) = some 0x0100#16 := by decide

/-- J9, J10 -/
theorem test_jc :
    pcAfter (withFlags false true false (machine 0x0040#16 [0xA000#16, 0x0100#16] [] [])) = some 0x0100#16 ∧
      pcAfter (withFlags true false true (machine 0x0040#16 [0xA000#16, 0x0100#16] [] [])) = some 0x0042#16 := by decide

/-- J11, J12 -/
theorem test_jnc :
    pcAfter (withFlags false true false (machine 0x0040#16 [0xA800#16, 0x0100#16] [] [])) = some 0x0042#16 ∧
      pcAfter (withFlags true false true (machine 0x0040#16 [0xA800#16, 0x0100#16] [] [])) = some 0x0100#16 := by decide

/-- J13, J14 -/
theorem test_jm :
    pcAfter (withFlags false false true (machine 0x0040#16 [0xB000#16, 0x0100#16] [] [])) = some 0x0100#16 ∧
      pcAfter (withFlags true true false (machine 0x0040#16 [0xB000#16, 0x0100#16] [] [])) = some 0x0042#16 := by decide

/-- J15, J16 -/
theorem test_jnm :
    pcAfter (withFlags false false true (machine 0x0040#16 [0xB800#16, 0x0100#16] [] [])) = some 0x0042#16 ∧
      pcAfter (withFlags true true false (machine 0x0040#16 [0xB800#16, 0x0100#16] [] [])) = some 0x0100#16 := by decide

/-- C5: the target wraps. -/
theorem test_jal_target_wraps :
    regAfter 2 (machine 0xFFF8#16 [0xE002#16, 0x0010#16] [] []) = some (0x0009#16, 0xFFFA#16, noFlags) := by decide

/-- C6: the link wraps. -/
theorem test_jal_link_wraps :
    regAfter 3 (machine 0xFFFE#16 [0xE003#16, 0x0002#16] [(3, 9#16)] []) =
      some (0x0001#16, 0x0000#16, noFlags) := by decide

/-- C9: the return goes through memory. -/
theorem test_jr : pcAfter (machine 0x0020#16 [0xC006#16] [(6, 0x0200#16)] [(0x0200#16, 0x0012#16)]) =
    some 0x0012#16 := by decide

/-- C11: a pointer at the `jr` itself. -/
theorem test_jr_through_itself :
    pcAfter (machine 0x0020#16 [0xC001#16] [(1, 0x0020#16)] []) = some 0xC001#16 := by decide

/-! ### What stops a step -/

/-- X1: the fault says where and which word, and is raised before any second word is read. -/
theorem test_reserved_word_faults :
    faultOf (step (machine 0x0040#16 [0x0000#16] [] [])) = some (.illegalInstruction 0x0040#16 0x0000#16) := by decide

/-- With nothing loaded the first fetch finds no word. -/
theorem test_reset_fetch_faults : faultOf (step State.reset) = some (.uninitialisedRead 0x0000#16) := by decide

/-- A second word that was never defined. -/
theorem test_undefined_second_word :
    faultOf (step (machine 0x0040#16 [0x0900#16] [] [])) = some (.uninitialisedRead 0x0041#16) := by decide

theorem test_refused_unused_bits :
    refusalOf (step { machine 0x0040#16 [0x4101#16, 0x0005#16] [] [] with cfg := refusing }) =
      some (.unusedFieldBits 0x0040#16 0x4101#16) := by decide

/-- The first and last read-only word cannot be written, the words around it can be, or are not backed. -/
theorem test_write_read_only :
    faultOf (step { machine 0x0040#16 [0x1280#16, 0x000F#16] [] [] with cfg := mapped }) =
        some (.busFault 0x000F#16 .write) ∧
      faultOf (step { machine 0x0040#16 [0x1280#16, 0x0010#16] [] [] with cfg := mapped }) =
        some (.busFault 0x0010#16 .write) ∧
      wordAfter 0x0020#16 { machine 0x0040#16 [0x1280#16, 0x0020#16] [] [] with cfg := mapped } =
        some (0x0042#16, some 0x0000#16) := by decide

theorem test_read_unbacked :
    faultOf (step { machine 0x0040#16 [0x0880#16, 0x001F#16] [] [] with cfg := mapped }) =
      some (.busFault 0x001F#16 .read) := by decide

/-- A store to a device goes on: the device sees it and no memory word changes (R36). -/
theorem test_stx_to_device :
    wordAfter 0xFFFF#16 { machine 0x0040#16 [0x1280#16, 0xFFFF#16] [(2, 7#16)] [] with cfg := mapped } =
        some (0x0042#16, none) ∧
      (nextOf (step { machine 0x0040#16 [0x1280#16, 0xFFFF#16] [(2, 7#16)] [] with cfg := mapped })).map
        (fun t => t.deviceSeen) = some [.write 0xFFFF#16 7#16] := by decide

/-- A load from a device goes on, with whatever the device answers (R36). -/
theorem test_lx_from_device :
    pcAfter { machine 0x0040#16 [0x0880#16, 0xFFFF#16] [] [] with cfg := mapped } = some 0x0042#16 := rfl

/-- A jump that is not taken reads its address word at a device all the same (R36). -/
theorem test_untaken_jump_reads_device :
    (nextOf (step { machine 0xFFFE#16 [0x9000#16] [] [] with cfg := mapped })).map
      (fun t => (t.pc, t.deviceSeen)) = some (0x0000#16, [.read 0xFFFF#16]) := rfl

/-- After a pointer is read from a device, the access it leads to is made too (R39). -/
theorem test_accesses_after_device_read :
    ({ machine 0x0040#16 [0x08C0#16, 0xFFFF#16] [] [] with cfg := mapped } : State).accesses =
      [.read 0x0040#16, .read 0x0041#16, .read 0xFFFF#16, .read (Config.freeDeviceWord [] 0xFFFF#16)] := rfl

/-- At HALT_PC the state repeats, whatever stands there. -/
theorem test_halted_repeats :
    nextOf (step { State.reset with cfg := { Config.default with haltPc := some 0x0000#16 } }) =
      some { State.reset with cfg := { Config.default with haltPc := some 0x0000#16 } } := by decide

/-- An instruction placed for the first fetch runs. -/
theorem test_withFetchWord :
    regAfter 3 (State.reset.withFetchWord 32 0x00640B00) = some (0x0002#16, 0x0064#16, noFlags) := by decide

/-! ### Accesses, in order (the rows of R39 as L5, L1, L9, L15, S1, S8, J1, C9 list them) -/

theorem test_accesses :
    (machine 0x0040#16 [0x0968#16] [] []).accesses = [.read 0x0040#16] ∧
      (machine 0x0000#16 [0x0800#16, 0xFFFF#16] [] []).accesses = [.read 0x0000#16, .read 0x0001#16] ∧
      (machine 0x0040#16 [0x0993#16, 0x000A#16] [(2, 0x0100#16), (3, 2#16)] []).accesses =
        [.read 0x0040#16, .read 0x0041#16, .read 0x010C#16] ∧
      (machine 0x0040#16 [0x8800#16, 0x0100#16] [] []).accesses = [.read 0x0040#16, .read 0x0041#16] ∧
      (machine 0x0020#16 [0xC006#16] [(6, 0x0200#16)] []).accesses = [.read 0x0020#16, .read 0x0200#16] := by decide

theorem test_accesses_of_stores_and_pointers :
    (machine 0x0040#16 [0x09D3#16, 0x000A#16] [(2, 0x0100#16), (3, 2#16)] [(0x010C#16, 0x0300#16)]).accesses =
        [.read 0x0040#16, .read 0x0041#16, .read 0x010C#16, .read 0x0300#16] ∧
      (machine 0x0040#16 [0x1288#16, 0xFFFB#16] [(1, 0x0105#16)] []).accesses =
        [.read 0x0040#16, .read 0x0041#16, .write 0x0100#16 0x0000#16] ∧
      (machine 0x0040#16 [0x12C8#16, 0xFFFB#16] [(1, 0x0105#16), (2, 0xABCD#16)] [(0x0100#16, 0x0300#16)]).accesses =
        [.read 0x0040#16, .read 0x0041#16, .read 0x0100#16, .write 0x0300#16 0xABCD#16] := by decide

/-! ### Witnesses: states and operands that meet the hypotheses of a statement together -/

/-- `ldn R1, @10(R2, R3)` with all that it reads (L15), for the statements about reads. -/
def ldnMachine : State :=
  machine 0x0040#16 [0x09D3#16, 0x000A#16] [(2, 0x0100#16), (3, 2#16)] [(0x010C#16, 0x0300#16), (0x0300#16, 0x7777#16)]

/-- `sdn @-5(R1), R2` with its pointer (S8), for the statements about writes. -/
def sdnMachine : State :=
  machine 0x0040#16 [0x12C8#16, 0xFFFB#16] [(1, 0x0105#16), (2, 0xABCD#16)] [(0x0100#16, 0x0300#16)]

/-- `sdn @0(R1), R2` with a pointer to the word at its own next pc. -/
def sdnNext : State :=
  machine 0x0040#16 [0x12C8#16, 0x0000#16] [(1, 0x0100#16), (2, 0x0840#16)] [(0x0100#16, 0x0042#16)]

theorem witness_EncodeOfDecodeClearsOnlyUnusedBits :
    decode Config.default [0x093F#16, 0x0064#16, 0x0840#16] = .ok (.li 1 0x0064#16, [0x0840#16]) ∧
      decode Config.default [0xDFFE#16] = .ok (.jr 6, []) := ⟨rfl, rfl⟩

theorem witness_FirstWordSelectsItsOpcodeRow :
    (⟨.jr, 0xC000#16, 0xE000#16, 1⟩ : OpRow) ∈ opTable ∧ 0xC003#16 &&& 0xE000#16 = 0xC000#16 := by decide

theorem witness_WordsDecodeExactlyWhenWellFormed :
    Config.default.unusedFields = .ignore ∧ Encoded.wf [0x0840#16] = true := by decide

theorem witness_UnusedBitsDoNotMatter :
    ∃ row, Config.default.unusedFields = .ignore ∧ findRow 0x0900#16 = some row ∧
      0x093F#16 &&& ~~~unusedBits Config.default row = 0x0900#16 &&& ~~~unusedBits Config.default row :=
  ⟨⟨.li, 0x0800#16, 0xF8C0#16, 2⟩, by decide⟩

theorem witness_StepRunsTheDecodedInstruction_one_word :
    (machine 0xFFFF#16 [0x0968#16] [] []).halted = false ∧
      (machine 0xFFFF#16 [0x0968#16] [] []).memRead 0xFFFF#16 = .ok 0x0968#16 ∧
      decode Config.default [0x0968#16] = .ok (.lr 1 5, []) := ⟨rfl, rfl, rfl⟩

theorem witness_StepRunsTheDecodedInstruction_two_words :
    (machine 0xFFFF#16 [0x0B00#16, 0x1234#16] [] []).halted = false ∧
      (machine 0xFFFF#16 [0x0B00#16, 0x1234#16] [] []).memRead 0xFFFF#16 = .ok 0x0B00#16 ∧
      ((machine 0xFFFF#16 [0x0B00#16, 0x1234#16] [] []).afterRead 0xFFFF#16).memRead (0xFFFF#16 + 1#16) =
        .ok 0x1234#16 ∧
      decode Config.default [0x0B00#16, 0x1234#16] = .ok (.li 3 0x1234#16, []) := ⟨rfl, rfl, rfl, rfl⟩

theorem witness_StepOnReservedWordFaults :
    (machine 0x0040#16 [0x107F#16] [] []).halted = false ∧
      (machine 0x0040#16 [0x107F#16] [] []).memRead 0x0040#16 = .ok 0x107F#16 ∧ Word.reserved 0x107F#16 = true :=
  ⟨rfl, rfl, rfl⟩

theorem witness_StepOnUnusedBitsRefuses :
    ∃ (s : State) (row : OpRow), s.halted = false ∧ s.cfg.unusedFields = .refuse ∧ s.memRead s.pc = .ok 0x4101#16 ∧
      findRow 0x4101#16 = some row ∧ 0x4101#16 &&& unusedBits s.cfg row ≠ 0x0000#16 ∧
      0x4101#16 &&& unusedBits s.cfg row ≠ unusedBits s.cfg row :=
  ⟨{ machine 0x0040#16 [0x4101#16, 0x0005#16] [] [] with cfg := refusing }, ⟨.addi, 0x4000#16, 0xF8C0#16, 2⟩,
    rfl, rfl, rfl, rfl, by decide, by decide⟩

theorem witness_PlacedInstructionRunsNext :
    State.reset.halted = false ∧ State.reset.cfg.memMap = [] ∧
      decode State.reset.cfg [(tableWords 16 0x0950).1, (tableWords 16 0x0950).2] = .ok (.lr 1 2, [0x0000#16]) ∧
      decode State.reset.cfg [(tableWords 32 0x00640B00).1, (tableWords 32 0x00640B00).2] =
        .ok (.li 3 0x0064#16, []) := ⟨rfl, rfl, rfl, rfl⟩

theorem witness_RunEndsAtHaltPc :
    ({ State.reset with cfg := { Config.default with haltPc := some 0x0000#16 } } : State).halted = true ∧
      State.reset.cfg.haltPc = none := ⟨rfl, rfl⟩

theorem witness_JumpToItselfRepeats :
    ∃ s t : State, onDevice s.cfg s.pc = false ∧ onDevice s.cfg (s.pc + 1#16) = false ∧
      s.memRead s.pc = .ok 0x8800#16 ∧ s.memRead (s.pc + 1#16) = .ok s.pc ∧ State.Steps s t ∧ s.Reaches t :=
  ⟨machine 0x0040#16 [0x8800#16, 0x0040#16] [] [], _, rfl, rfl, rfl, rfl, rfl, Relation.ReflTransGen.single rfl⟩

theorem witness_MemReadAfterMemWrite :
    onDevice Config.default 0xFFFF#16 = false ∧
      ∃ t, (machine 0x0040#16 [] [] []).memWrite 0xFFFF#16 0x1234#16 = .ok t ∧ t.memRead 0xFFFF#16 = .ok 0x1234#16 :=
  ⟨rfl, _, rfl, rfl⟩

/-- Each kind at the first and the last address of its region, and the words next to the regions. -/
theorem witness_MapDecidesEachAccess :
    regionKind mapped 0x0000#16 = .readOnly ∧ regionKind mapped 0x000F#16 = .readOnly ∧
      regionKind mapped 0x0010#16 = .unbacked ∧ regionKind mapped 0x001F#16 = .unbacked ∧
      regionKind mapped 0x0020#16 = .readWrite ∧ regionKind mapped 0xFFFE#16 = .readWrite ∧
      regionKind mapped 0xFFFF#16 = .device := by decide

theorem witness_WellFormedMapSaysOneThing :
    mapped.wf = true ∧ (⟨65535, 1, .device⟩ : Region) ∈ mapped.memMap ∧
      ((∀ r ∈ mapped.memMap, (0x0020#16).toNat < r.base ∨ r.base + r.size ≤ (0x0020#16).toNat) ∧
        ∀ r ∈ mapped.memMap, (0xFFFE#16).toNat < r.base ∨ r.base + r.size ≤ (0xFFFE#16).toNat) := by decide

theorem witness_UndefinedWordReadFaults :
    regionKind mapped 0x000F#16 = .readOnly ∧ Memory.wordAt State.reset.mem 0x000F#16 = none ∧
      regionKind State.reset.cfg 0xFFFF#16 = .readWrite ∧ Memory.wordAt State.reset.mem 0xFFFF#16 = none := by decide

theorem witness_LoadImmediateAndRegister :
    0x0F3F#16 &&& 0xF8C0#16 = 0x0800#16 ∧ 0x0F7F#16 &&& 0xF8C0#16 = 0x0840#16 := by decide

theorem witness_LoadsFromMemory :
    0x0FBF#16 &&& 0xF8C0#16 = 0x0880#16 ∧ 0x0FFF#16 &&& 0xF8C0#16 = 0x08C0#16 ∧
      ldnMachine.memRead (10#16 + ldnMachine.reg 2 + ldnMachine.reg 3) = .ok 0x0300#16 ∧
      (ldnMachine.afterRead (10#16 + ldnMachine.reg 2 + ldnMachine.reg 3)).memRead 0x0300#16 = .ok 0x7777#16 :=
  ⟨by decide, by decide, rfl, rfl⟩

theorem witness_Stores :
    0x17BF#16 &&& 0xF8C0#16 = 0x1080#16 ∧ 0x17FF#16 &&& 0xF8C0#16 = 0x10C0#16 ∧
      Config.default.storeData = .bits10to8 ∧ regionKind sdnMachine.cfg (sdnMachine.storeAddr 0xFFFB#16 1) = .readWrite ∧
      sdnMachine.memRead (sdnMachine.storeAddr 0xFFFB#16 1) = .ok 0x0300#16 ∧
      regionKind sdnMachine.cfg 0x0300#16 = .readWrite ∧ regionKind mapped 0xFFFF#16 = .device :=
  ⟨by decide, by decide, rfl, by decide, rfl, by decide, by decide⟩

theorem witness_AluImmediateForms :
    State.reset.cfg.subiReversed = false ∧
      ({ Config.default with subiReversed := true } : Config).subiReversed = true := ⟨rfl, rfl⟩

theorem witness_AluIndexedForms :
    ldnMachine.memRead (ldnMachine.effAddr 10#16 2 3) = .ok 0x0300#16 := rfl

theorem witness_AluIndirectForms :
    ldnMachine.memRead (ldnMachine.effAddr 10#16 2 3) = .ok 0x0300#16 ∧
      (ldnMachine.afterRead (ldnMachine.effAddr 10#16 2 3)).memRead 0x0300#16 = .ok 0x7777#16 := ⟨rfl, rfl⟩

/-- One instruction of each addressing mode. -/
theorem witness_TwoOperandModel :
    drawnAluOp 0x51D3#16 = some .and ∧ drawnOperand 0x51D3#16 10#16 = .indirect 10#16 2 3 ∧
      aluForm (.andn 1 10#16 2 3) = some (.and, 1, .indirect 10#16 2 3) ∧
      OperandIs ldnMachine (.indirect 10#16 2 3) 0x7777#16 ∧ OperandIs ldnMachine (.indexed 10#16 2 3) 0x0300#16 ∧
      OperandIs ldnMachine (.register 2) 0x0100#16 ∧ OperandIs ldnMachine (.immediate 7#16) 7#16 ∧
      ldnMachine.cfg.subiReversed = false ∧ ∃ t, exec (.andn 1 10#16 2 3) ldnMachine = .next t :=
  ⟨rfl, rfl, rfl, ⟨_, rfl, rfl⟩, rfl, rfl, rfl, rfl, _, rfl⟩

theorem witness_DefaultFlagsAreExactArithmetic : Config.default.flagRule = .borrow := rfl

theorem witness_CompareWritesOnlyFlags :
    State.reset.cfg.flagRule = .borrow ∧ State.reset.cfg.cmpRule = .zero := ⟨rfl, rfl⟩

theorem witness_JumpUnconditional : 0x8FFF#16 &&& 0xF800#16 = 0x8800#16 := by decide

theorem witness_ConditionalJumps :
    0x97FF#16 &&& 0xF800#16 = 0x9000#16 ∧ 0x9FFF#16 &&& 0xF800#16 = 0x9800#16 ∧
      0xA7FF#16 &&& 0xF800#16 = 0xA000#16 ∧ 0xAFFF#16 &&& 0xF800#16 = 0xA800#16 ∧
      0xB7FF#16 &&& 0xF800#16 = 0xB000#16 ∧ 0xBFFF#16 &&& 0xF800#16 = 0xB800#16 := by decide

theorem witness_JumpAndLink : 0xFFFF#16 &&& 0xE000#16 = 0xE000#16 := by decide

theorem witness_ReturnGoesThroughMemory :
    0xDFFF#16 &&& 0xE000#16 = 0xC000#16 ∧
      (ldnMachine.setReg 6 0x0300#16).memRead ((ldnMachine.setReg 6 0x0300#16).reg 6) = .ok 0x7777#16 :=
  ⟨by decide, rfl⟩

theorem witness_PcStepsOverTheInstructionsWords :
    isTransfer (.sdn 0xFFFB#16 1 2) = false ∧ (∃ t, exec (.sdn 0xFFFB#16 1 2) sdnMachine = .next t) ∧
      isTransfer (.orr 1 2) = false ∧ ∃ t, exec (.orr 1 2) sdnMachine = .next t :=
  ⟨rfl, ⟨_, rfl⟩, rfl, _, rfl⟩

theorem witness_RegisterWritesFollowTheTable :
    writtenReg (.jal 7 1#16) ≠ some 6 ∧ ∃ t, exec (.jal 7 1#16) sdnMachine = .next t := ⟨by decide, _, rfl⟩

theorem witness_RegisterReadsFollowTheTable :
    0 ∉ readRegs (.sdn 0xFFFB#16 1 2) ∧ 0 ∉ readRegs (.cmp 7) ∧ State.reset.cfg.cmpRule = .zero := by decide

theorem witness_OnlyClass01WritesFlags :
    isClass01 (.sdn 0xFFFB#16 1 2) = false ∧ ∃ t, exec (.sdn 0xFFFB#16 1 2) sdnMachine = .next t := ⟨rfl, _, rfl⟩

theorem witness_FlagsAreReadOnlyByTheirJumps :
    sameTestedFlag (.jz 7#16) State.reset (State.reset.setFlags ⟨false, true, true⟩) ∧
      sameTestedFlag (.jnc 7#16) State.reset (State.reset.setFlags ⟨true, false, true⟩) ∧
      sameTestedFlag (.jm 7#16) State.reset (State.reset.setFlags ⟨true, true, false⟩) ∧
      sameTestedFlag (.jr 7) State.reset (State.reset.setFlags ⟨true, true, true⟩) ∧
      State.reset.cfg.flagRule ≠ .uninterpreted := ⟨rfl, rfl, rfl, trivial, by decide⟩

/-- The two rows of the table that follow a pointer, with the pointer readable. -/
theorem witness_AccessOrderFollowsTheTable :
    ldnMachine.halted = false ∧ ldnMachine.fetch = .ok (.ldn 1 10#16 2 3, ldnMachine) ∧
      ldnMachine.memRead (ldnMachine.effAddr 10#16 2 3) = .ok 0x0300#16 ∧
      sdnMachine.halted = false ∧ sdnMachine.fetch = .ok (.sdn 0xFFFB#16 1 2, sdnMachine) ∧
      sdnMachine.memRead (sdnMachine.storeAddr 0xFFFB#16 1) = .ok 0x0300#16 :=
  ⟨rfl, rfl, rfl, rfl, rfl, rfl⟩

/-- A step and an instruction that a device sees. -/
theorem witness_DevicesSeeTheAccessesInOrder :
    ∃ s t : State, step s = .next t ∧ t.deviceSeen ≠ s.deviceSeen ∧
      ∃ u, exec (.stx 0xFFFF#16 0 2) s = .next u ∧ u.deviceSeen ≠ s.deviceSeen :=
  ⟨{ machine 0x0040#16 [0x1280#16, 0xFFFF#16] [(2, 7#16)] [] with cfg := mapped }, _, rfl, by decide, _, rfl, by decide⟩

/-- A jump at 0xFFFE with its address word at the last address, a device's. -/
def jumpAtDevice (iw : Word) (z c m : Bool) : State :=
  withFlags z c m { machine 0xFFFE#16 [iw] [] [] with cfg := mapped }

theorem witness_UntakenJumpReadsItsAddressWordAtADevice :
    ((jumpAtDevice 0x97FF#16 false true true).halted = false ∧
      (jumpAtDevice 0x97FF#16 false true true).cfg.unusedFields = .ignore ∧
      onDevice mapped (0xFFFE#16 + 1#16) = true) ∧
      (jumpAtDevice 0x97FF#16 false true true).memRead 0xFFFE#16 = .ok 0x97FF#16 ∧
      (jumpAtDevice 0x9FFF#16 true false false).memRead 0xFFFE#16 = .ok 0x9FFF#16 ∧
      (jumpAtDevice 0xA7FF#16 true false true).memRead 0xFFFE#16 = .ok 0xA7FF#16 ∧
      (jumpAtDevice 0xAFFF#16 false true false).memRead 0xFFFE#16 = .ok 0xAFFF#16 ∧
      (jumpAtDevice 0xB7FF#16 true true false).memRead 0xFFFE#16 = .ok 0xB7FF#16 ∧
      (jumpAtDevice 0xBFFF#16 false false true).memRead 0xFFFE#16 = .ok 0xBFFF#16 :=
  ⟨⟨rfl, rfl, rfl⟩, rfl, rfl, rfl, rfl, rfl, rfl⟩

theorem witness_OneToFourReadsAtMostOneWrite :
    sdnMachine.halted = false ∧ sdnMachine.accesses.countP Access.isRead = 3 ∧ sdnMachine.accesses.length = 4 := by
  decide

/-- A run that goes on, and one that stops at its third access. -/
theorem witness_StepStopsAtItsFirstFailingAccess :
    (sdnMachine.halted = false ∧ (∃ row, decodeFirst sdnMachine.cfg 0x12C8#16 = .ok row) ∧
      sdnMachine.memRead sdnMachine.pc = .ok 0x12C8#16 ∧ sdnMachine.accesses.findSome? (Access.stop sdnMachine) = none) ∧
      ∃ s : State, s.memRead s.pc = .ok 0x12C8#16 ∧
        s.accesses.findSome? (Access.stop s) = some (.fault (.uninitialisedRead 0x0100#16)) :=
  ⟨⟨rfl, ⟨_, rfl⟩, rfl, by decide⟩, machine 0x0040#16 [0x12C8#16, 0x0000#16] [(1, 0x0100#16)] [], rfl, by decide⟩

theorem witness_StepWritesOnlyItsWriteAccess :
    (∃ t, step sdnMachine = .next t) ∧
      sdnMachine.accesses = [.read 0x0040#16, .read 0x0041#16, .read 0x0100#16, .write 0x0300#16 0xABCD#16] ∧
      0x601 = highCell 0x0300#16 ∧ 0x602 ≠ lowCell 0x0300#16 ∧ 0x602 ≠ highCell 0x0300#16 :=
  ⟨⟨_, rfl⟩, by decide, by decide, by decide, by decide⟩

/-- Another memory with the same words at the reads: one word more at 0x0000. -/
theorem witness_StepReadsOnlyItsReadAccesses :
    Memory.wordAt ldnMachine.mem 0x0000#16 = none ∧
      Memory.wordAt (Memory.setWord ldnMachine.mem 0x0000#16 1#16) 0x0000#16 = some 1#16 ∧
      ldnMachine.accesses = [.read 0x0040#16, .read 0x0041#16, .read 0x010C#16, .read 0x0300#16] ∧
      [0x0040#16, 0x0041#16, 0x010C#16, 0x0300#16].map (Memory.wordAt (Memory.setWord ldnMachine.mem 0x0000#16 1#16)) =
        [0x0040#16, 0x0041#16, 0x010C#16, 0x0300#16].map (Memory.wordAt ldnMachine.mem) := by
  refine ⟨?_, ?_, ?_, ?_⟩ <;> decide

theorem witness_ParametersNeverChange : ∃ t, ldnMachine.Reaches t ∧ t ≠ ldnMachine :=
  ⟨_, Relation.ReflTransGen.single (show step ldnMachine = .next _ from rfl), by decide⟩

theorem witness_StoreIsSeenByTheNextFetch :
    (∃ t, exec (.stx 0x0000#16 1 2) ((sdnNext.setPc 0x0041#16).setReg 1 0x0042#16) = .next t ∧
        ((sdnNext.setPc 0x0041#16).setReg 1 0x0042#16).storeAddr 0x0000#16 1 = t.pc ∧
        onDevice sdnNext.cfg t.pc = false) ∧
      ∃ t, exec (.sdn 0x0000#16 1 2) (sdnNext.setPc 0x0041#16) = .next t ∧
        (sdnNext.setPc 0x0041#16).memRead ((sdnNext.setPc 0x0041#16).storeAddr 0x0000#16 1) = .ok t.pc ∧
        onDevice sdnNext.cfg t.pc = false :=
  ⟨⟨_, rfl, rfl, rfl⟩, _, rfl, rfl, rfl⟩

theorem witness_LaunchStartsAtResetPc :
    State.Launched Config.default [] State.reset ∧ State.reset.halted = false := ⟨⟨rfl, rfl, rfl⟩, rfl⟩

theorem witness_StepKeepsTheInvariant : State.Inv sdnMachine ∧ ∃ t, step sdnMachine = .next t :=
  ⟨⟨by decide, by decide⟩, _, rfl⟩

theorem witness_NoRunChangesAWordThatIsNotWritable :
    ∃ s t : State, s.Reaches t ∧ regionKind s.cfg 0x000F#16 ≠ .readWrite ∧ t.mem ≠ s.mem :=
  ⟨{ machine 0x0040#16 [0x1280#16, 0x0020#16] [] [] with cfg := mapped }, _, Relation.ReflTransGen.single rfl,
    by decide, by decide⟩

/-- The same at a device that takes a store, with a word listed under its window. -/
theorem witness_NoRunChangesAWordThatIsNotWritable_device :
    ∃ s t : State, s.Reaches t ∧ regionKind s.cfg 0xFFFF#16 = .device ∧
      Memory.wordAt s.mem 0xFFFF#16 = some 9#16 ∧ t.deviceSeen = [.write 0xFFFF#16 7#16] :=
  ⟨{ machine 0x0040#16 [0x1280#16, 0xFFFF#16] [(2, 7#16)] [(0xFFFF#16, 9#16)] with cfg := mapped }, _,
    Relation.ReflTransGen.single rfl, by decide, by decide, by decide⟩

theorem witness_DefinedWordsStayDefined :
    ∃ s t : State, s.Reaches t ∧ (Memory.wordAt s.mem 0x0100#16).isSome = true ∧ t ≠ s :=
  ⟨sdnMachine, _, Relation.ReflTransGen.single rfl, by decide, by decide⟩

/-- `n` cells from `lo` on, each with the byte 0x08. -/
def filledCells (lo n : Nat) : Memory := (List.range' lo n).map fun c => (c, 0x08#8)

theorem byteAt_filledCells (lo n a : Nat) (h : lo ≤ a) (h' : a < lo + n) :
    Memory.byteAt (filledCells lo n) a = some 0x08#8 := by
  induction n generalizing lo with
  | zero => omega
  | succ n ih =>
    rw [filledCells, List.range'_succ, List.map_cons, Memory.byteAt]
    split
    · rfl
    · exact ih (lo + 1) (by omega) (by omega)

/-- A memory of 65536 words 0x0808, each the first word of a `li`. -/
def filledMachine : State := { State.reset with mem := filledCells 0 131072 }

theorem wordAt_filledMachine (a : Word) : Memory.wordAt filledMachine.mem a = some 0x0808#16 := by
  have hl := a.isLt
  show Memory.wordAt (filledCells 0 131072) a = _
  rw [Memory.wordAt, byteAt_filledCells 0 131072 (lowCell a) (by omega) (by rw [lowCell]; omega),
    byteAt_filledCells 0 131072 (highCell a) (by omega) (by rw [highCell]; omega)]
  decide

theorem witness_DefinedMachineNeverStops :
    filledMachine.AllDefined ∧ (∀ a, regionKind filledMachine.cfg a = .readWrite ∨ regionKind filledMachine.cfg a = .device) ∧
      Memory.wordAt filledMachine.mem filledMachine.pc = some 0x0808#16 ∧
      ∃ row, decodeFirst filledMachine.cfg 0x0808#16 = .ok row :=
  ⟨fun a => by rw [wordAt_filledMachine]; rfl, fun _ => .inl rfl, wordAt_filledMachine _, _, rfl⟩

end Sys2Proof.Tests
end

section
/-! PROOFS. Memory (20_memory.md): what stands where after a write (R32), and the order of the accesses of a cycle
(R39). -/

namespace Sys2Proof.Machine

/-! ### A read after a write -/

/-- What MEM_MAP lets be written it lets be read (R37). -/
theorem mapStop_read_of_write {cfg : Config} {a : Word} (h : mapStop cfg a .write = none) :
    mapStop cfg a .read = none := by
  unfold mapStop at h ⊢
  cases hk : regionKind cfg a with
  | readWrite => rfl
  | readOnly => rfl
  | unbacked => simp [hk] at h
  | device => rfl

/-- A write elsewhere than at a device that goes on: MEM_MAP allows it, and the word is replaced (R32). -/
theorem State.memWrite_memory {s t : State} {a v : Word} (hd : onDevice s.cfg a = false) :
    s.memWrite a v = .ok t ↔ mapStop s.cfg a .write = none ∧ t = s.setMem (Memory.setWord s.mem a v) := by
  simp [State.memWrite_ok, hd]

/-- The written word is read back. -/
theorem State.memRead_setWord_same {s : State} {a : Word} (v : Word) (hd : onDevice s.cfg a = false)
    (hr : mapStop s.cfg a .read = none) : (s.setMem (Memory.setWord s.mem a v)).memRead a = .ok v := by
  refine State.memRead_ok.2 (.inr ⟨hd, hr, ?_⟩)
  simp

/-- Every other read gives what it gave before. -/
theorem State.memRead_setWord_of_ne (s : State) {a b : Word} (v : Word) (hb : b ≠ a) :
    (s.setMem (Memory.setWord s.mem a v)).memRead b = s.memRead b := by
  simp [State.memRead, hb]

/-- A word put in memory is the only word that differs. -/
theorem wordStored_setWord (s : State) (a v : Word) : WordStored s (s.setMem (Memory.setWord s.mem a v)) a v :=
  ⟨by simp, Memory.byteAt_setWord_of_ne s.mem a v⟩

/-- Settles O15: away from a device, a write that goes on is one word put in memory. -/
theorem memReadAfterMemWrite : Obligations.MemReadAfterMemWrite := by
  refine ⟨fun s a hd => State.afterRead_memory hd, fun s t a v hd h => ?_⟩
  obtain ⟨hw, rfl⟩ := (State.memWrite_memory hd).1 h
  have hsame := State.memRead_setWord_same v hd (mapStop_read_of_write hw)
  exact ⟨hsame, fun b hb => State.memRead_setWord_of_ne s v hb, wordStored_setWord s a v, rfl, fun _ => rfl,
    ⟨rfl, rfl, rfl⟩, rfl⟩

/-! ### The order of the accesses -/

/-- How many words the instructions of a row have (the column of R58). -/
def opWords : Op → Nat
  | .lr | .addr | .subr | .andr | .orr | .cmp | .jr => 1
  | .li | .lx | .ldn | .stx | .sdn => 2
  | .addi | .addx | .addn | .subi | .subx | .subn | .andi | .andx | .andn | .ori | .orx | .orn => 2
  | .j | .jz | .jnz | .jc | .jnc | .jm | .jnm | .jal => 2

theorem words_of_mem_opTable {row : OpRow} (h : row ∈ opTable) : row.words = opWords row.op := by
  revert row
  decide

@[simp] theorem assemble_op (cfg : Config) (op : Op) (iw w2 : Word) : (assemble cfg op iw w2).op = op := by
  cases op <;> rfl

/-- The row that the first word selects is the one of the fetched instruction. -/
theorem State.fetch_ok_row {s u : State} {i : Instr} (h : s.fetch = .ok (i, u)) :
    ∃ iw row, s.memRead s.pc = .ok iw ∧ decodeFirst s.cfg iw = .ok row ∧ row.words = opWords i.op := by
  obtain ⟨iw, row, hiw, hrow, hi⟩ := State.fetch_ok h
  have hwords := words_of_mem_opTable (findRow_some (decodeFirst_ok.1 hrow).1).1
  have hop : i.op = row.op := by
    obtain ⟨-, rfl, -⟩ | ⟨-, w2, -, rfl, -⟩ := hi <;> exact assemble_op ..
  exact ⟨iw, row, hiw, hrow, hop ▸ hwords⟩

/-- The reads of the words of an instruction at `A` (R39, R55). -/
def wordReads (A : Word) (i : Instr) : List Access :=
  .read A :: if opWords i.op = 1 then [] else [.read (A + 1#16)]

/-- A fetch that succeeds has read the words of its instruction. -/
theorem State.fetchAccesses_of_fetch {s u : State} {i : Instr} (h : s.fetch = .ok (i, u)) :
    s.fetchAccesses = wordReads s.pc i := by
  obtain ⟨iw, row, hiw, hrow, hwords⟩ := State.fetch_ok_row h
  simp [State.fetchAccesses, wordReads, hiw, hrow, hwords]

/-- The accesses of a cycle whose fetch succeeds: the words of the instruction, then its data. -/
theorem State.accesses_of_fetch {s u : State} {i : Instr} (hh : s.halted = false) (h : s.fetch = .ok (i, u)) :
    s.accesses = wordReads s.pc i ++ u.dataAccesses i := by
  simp [State.accesses, hh, h, State.fetchAccesses_of_fetch h]

theorem State.afterPointer_ok {s : State} {a ptr : Word} (h : s.memRead a = .ok ptr) (next : Word → Access) :
    s.afterPointer a next = [next ptr] := by
  simp [State.afterPointer, h]

/-- The words of an instruction and then its data accesses are its line of R39's table. -/
theorem ruleAccesses_words_data (s : State) (A : Word) (i : Instr) :
    ruleAccesses s A i (wordReads A i ++ s.dataAccesses i) := by
  cases i
  case ldn | addn | subn | andn | orn =>
    intro ptr hptr
    simp [wordReads, opWords, Instr.op, State.dataAccesses, State.operandAccesses, State.afterPointer_ok hptr]
  case sdn =>
    intro ptr hptr
    simp [wordReads, opWords, Instr.op, State.dataAccesses, State.afterPointer_ok hptr]
  -- the other lines of the table follow no pointer
  all_goals exact rfl

/-- Settles O39: the fetch reads the instruction's words, and its data accesses complete the table's line. -/
theorem accessOrderFollowsTheTable : Obligations.AccessOrderFollowsTheTable := by
  intro s u i hh hf
  rw [State.accesses_of_fetch hh hf]
  exact ruleAccesses_words_data u s.pc i

end Sys2Proof.Machine
end

section
/-! PROOFS. Loads (40_load_store.md): the first words that select them, and what they write (R71 to R74). -/

namespace Sys2Proof.Machine

/-! ### First words and the instructions they select -/

/-- Two rows of the op-code map that agree on the bits both fix are the same row (R58). -/
theorem opTable_row_unique :
    ∀ r ∈ opTable, ∀ q ∈ opTable, r.value &&& q.mask = q.value &&& r.mask → r = q := by
  decide

/-- A first word that has the fixed bits of a row selects that row and no other (R58). -/
theorem findRow_of_mem {iw : Word} {row : OpRow} (hm : row ∈ opTable) (h : iw &&& row.mask = row.value) :
    findRow iw = some row := by
  have hfound : (findRow iw).isSome = true := List.find?_isSome.2 ⟨row, hm, by simpa using h⟩
  obtain ⟨q, hq⟩ := Option.isSome_iff_exists.1 hfound
  obtain ⟨hqm, hqv⟩ := findRow_some hq
  have hagree : q.value &&& row.mask = row.value &&& q.mask := by
    rw [← hqv, ← h, BitVec.and_assoc, BitVec.and_assoc, BitVec.and_comm q.mask]
  rwa [opTable_row_unique q hqm row hm hagree] at hq

/-- Where UNUSED_FIELD_POLICY is `ignore`, the fixed bits of a row are all that its first word needs (R57, R58). -/
theorem decodeFirst_of_ignore {cfg : Config} {iw : Word} {row : OpRow} (hc : cfg.unusedFields = .ignore)
    (hm : row ∈ opTable) (h : iw &&& row.mask = row.value) : decodeFirst cfg iw = .ok row :=
  decodeFirst_ok.2 ⟨findRow_of_mem hm h, by simp [unusedAccepted, hc]⟩

/-- A one-word instruction takes its first word only (R55). -/
theorem decode_oneWord {cfg : Config} {iw : Word} {row : OpRow} (rest : List Word)
    (h : decodeFirst cfg iw = .ok row) (hw : row.words = 1) :
    decode cfg (iw :: rest) = .ok (assemble cfg row.op iw 0x0000#16, rest) := by
  simp [decode, h, hw]

/-- A two-word instruction takes the word after its first word as well (R55). -/
theorem decode_twoWords {cfg : Config} {iw : Word} {row : OpRow} (w2 : Word) (rest : List Word)
    (h : decodeFirst cfg iw = .ok row) (hw : row.words = 2) :
    decode cfg (iw :: w2 :: rest) = .ok (assemble cfg row.op iw w2, rest) := by
  simp [decode, h, hw]

/-! ### What a load leaves -/

/-- The state that a load makes of the one after its operand is read differs from the one before the read in the
destination and the pc (R18, R71 to R74). -/
theorem loadEffect_of_readOperand {s u : State} {o : Operand} {v : Word} (dst : Reg)
    (h : s.readOperand o = .ok (v, u)) :
    LoadEffect s ((u.setReg dst v).pastOperand o) dst v (s.pc + o.secondWords) := by
  obtain ⟨seen, rfl⟩ : ∃ seen, u = { s with deviceSeen := seen } := ⟨_, State.readOperand_state h⟩
  have hreg : RegWritten s ((State.setReg { s with deviceSeen := seen } dst v).pastOperand o) dst v := by
    refine ⟨by simp, fun r hr => ?_⟩
    simp only [State.pastOperand_reg, State.setReg_reg, if_neg hr]
    rfl
  exact ⟨hreg, by simp, ⟨by simp, by simp, by simp⟩, fun c => by simp, by simp [ParamsKept]⟩

/-- A load whose operand has the value `v` completes and writes `v` (R71 to R74). -/
theorem exec_load_effect {i : Instr} {s : State} {dst : Reg} {o : Operand} {v : Word}
    (hi : loadForm i = some (dst, o)) (hv : OperandIs s o v) :
    ∃ t, exec i s = .next t ∧ LoadEffect s t dst v (s.pc + o.secondWords) := by
  obtain ⟨u, hu⟩ := operandIs_iff.1 hv
  rw [exec_of_loadForm hi]
  exact ⟨_, loadOperand_next.2 ⟨v, u, hu, rfl⟩, loadEffect_of_readOperand dst hu⟩

/-! ### The statements -/

/-- Settles O19: each word selects its row, and an immediate or a register always has a value. -/
theorem loadImmediateAndRegister : Obligations.LoadImmediateAndRegister := by
  refine ⟨fun cfg iw imm rest hc h => ?_, fun cfg iw rest hc h => ?_, fun dst imm s => ?_, fun dst src1 s => ?_⟩
  · exact decode_twoWords imm rest
      (decodeFirst_of_ignore (row := ⟨.li, 0x0800#16, 0xF8C0#16, 2⟩) hc (by decide) h) rfl
  · exact decode_oneWord rest
      (decodeFirst_of_ignore (row := ⟨.lr, 0x0840#16, 0xF8C0#16, 1⟩) hc (by decide) h) rfl
  · exact exec_load_effect (o := .immediate imm) rfl rfl
  · have hpc : s.pc + (Operand.register src1).secondWords = s.pc := BitVec.add_zero s.pc
    exact hpc ▸ exec_load_effect (o := .register src1) rfl rfl

/-- Settles O20: each word selects its row, and the reads that go on give the operand its value. -/
theorem loadsFromMemory : Obligations.LoadsFromMemory := by
  refine ⟨fun cfg iw disp rest hc => ⟨fun h => ?_, fun h => ?_⟩, fun dst disp src1 src2 s v hv => ?_,
    fun dst disp src1 src2 s ptr v hptr hv => ?_⟩
  · exact decode_twoWords disp rest
      (decodeFirst_of_ignore (row := ⟨.lx, 0x0880#16, 0xF8C0#16, 2⟩) hc (by decide) h) rfl
  · exact decode_twoWords disp rest
      (decodeFirst_of_ignore (row := ⟨.ldn, 0x08C0#16, 0xF8C0#16, 2⟩) hc (by decide) h) rfl
  · exact exec_load_effect (o := .indexed disp src1 src2) rfl hv
  · exact exec_load_effect (o := .indirect disp src1 src2) rfl ⟨ptr, hptr, hv⟩

end Sys2Proof.Machine
end

section
/-! PROOFS. Class 01 (41_alu.md): the first words of the two-operand instructions, and what these write (R90). -/

namespace Sys2Proof.Machine

/-! ### The fields of a first word and the rows that they select -/

/-- The bits that a two-operand row fixes are the fields `op` and `alu`, bits 15:11, and `add`, bits 7:6 (R51, R58). -/
theorem and_aluMask (iw : Word) :
    iw &&& 0xF8C0#16 = BitVec.ofNat 16 (iw.toNat / 2048) <<< 11 ||| BitVec.ofNat 16 (iw.toNat / 64 % 4) <<< 6 := by
  have halu : BitVec.ofNat 16 (iw.toNat / 2048) = iw >>> 11 :=
    BitVec.eq_of_toNat_eq (by simp [Nat.shiftRight_eq_div_pow]; omega)
  have hmod : iw.toNat / 64 &&& 3 = iw.toNat / 64 % 4 := Nat.and_two_pow_sub_one_eq_mod _ 2
  have hadd : BitVec.ofNat 16 (iw.toNat / 64 % 4) = iw >>> 6 &&& 3#16 :=
    BitVec.eq_of_toNat_eq (by simp [Nat.shiftRight_eq_div_pow, hmod]; omega)
  rw [halu, hadd]
  ext i hi
  interval_cases i <;> simp

/-- The two-operand operation that the number in the field `alu` stands for (R59). -/
def aluNumber : Fin 4 → AluOp
  | 0 => .add
  | 1 => .sub
  | 2 => .and
  | 3 => .or

/-- The row of the op-code map with the class 01 operation number `k` and the addressing mode `m` (R58): the two-operand
rows stand together, after the six of class 00. -/
def aluRow (k m : Fin 4) : OpRow :=
  opTable[6 + 4 * k.val + m.val]'(show _ < 32 by omega)

theorem aluRow_mem (k m : Fin 4) : aluRow k m ∈ opTable := List.getElem_mem _

theorem aluRow_mask (k m : Fin 4) : (aluRow k m).mask = 0xF8C0#16 := by
  revert k m
  decide

theorem aluRow_value (k m : Fin 4) :
    (aluRow k m).value = BitVec.ofNat 16 (8 + k) <<< 11 ||| BitVec.ofNat 16 m <<< 6 := by
  revert k m
  decide

theorem aluRow_words (k m : Fin 4) : (aluRow k m).words = if m = 1 then 1 else 2 := by
  revert k m
  decide

/-- A two-operand word has `op` = 01 and the number of its operation in the field `alu`. -/
theorem drawnAluOp_some {iw : Word} {op : AluOp} (h : drawnAluOp iw = some op) :
    ∃ k : Fin 4, iw.toNat / 2048 = 8 + k ∧ op = aluNumber k := by
  unfold drawnAluOp at h
  split at h <;> cases h
  case h_1 hk => exact ⟨0, hk, rfl⟩
  case h_2 hk => exact ⟨1, hk, rfl⟩
  case h_3 hk => exact ⟨2, hk, rfl⟩
  case h_4 hk => exact ⟨3, hk, rfl⟩

/-- A register operand makes no use of a second word. -/
theorem drawnOperand_register {iw : Word} (hm : iw.toNat / 64 % 4 = 1) (w2 : Word) :
    drawnOperand iw w2 = .register (regField iw 3) := by
  simp [drawnOperand, hm]

/-- The fields of a first word select its row. -/
theorem decodeFirst_aluRow {cfg : Config} {iw : Word} {k m : Fin 4} (hc : cfg.unusedFields = .ignore)
    (hk : iw.toNat / 2048 = 8 + k) (hm : iw.toNat / 64 % 4 = m) : decodeFirst cfg iw = .ok (aluRow k m) :=
  decodeFirst_of_ignore hc (aluRow_mem k m) (by rw [aluRow_mask, aluRow_value, and_aluMask, hk, hm])

/-- The instruction of a two-operand row has the row's operation, and the operand that the field `add` draws. -/
theorem aluForm_assemble_aluRow (cfg : Config) {iw : Word} (w2 : Word) (k : Fin 4) {m : Fin 4}
    (hm : iw.toNat / 64 % 4 = m) :
    aluForm (assemble cfg (aluRow k m).op iw w2) = some (aluNumber k, regField iw 8, drawnOperand iw w2) := by
  rw [drawnOperand, hm]
  fin_cases m <;> fin_cases k <;> rfl

/-- A two-operand word decodes to the operation, the destination and the second operand that its fields draw (R51, R53,
R59). -/
theorem decode_of_drawnAluOp {cfg : Config} {iw : Word} {op : AluOp} (w2 : Word) (hc : cfg.unusedFields = .ignore)
    (hop : drawnAluOp iw = some op) :
    ∃ i rest, decode cfg [iw, w2] = .ok (i, rest) ∧ aluForm i = some (op, regField iw 8, drawnOperand iw w2) := by
  obtain ⟨k, hk, rfl⟩ := drawnAluOp_some hop
  obtain ⟨m, hm⟩ : ∃ m : Fin 4, iw.toNat / 64 % 4 = m := ⟨⟨_, Nat.mod_lt _ (by decide)⟩, rfl⟩
  have hrow := decodeFirst_aluRow hc hk hm
  by_cases h1 : m = 1
  · subst h1
    refine ⟨_, _, decode_oneWord [w2] hrow (aluRow_words k 1), ?_⟩
    rw [aluForm_assemble_aluRow cfg _ k hm, drawnOperand_register hm, drawnOperand_register hm]
  · have hwords : (aluRow k m).words = 2 := (aluRow_words k m).trans (if_neg h1)
    exact ⟨_, _, decode_twoWords w2 [] hrow hwords, aluForm_assemble_aluRow cfg w2 k hm⟩

/-! ### What a two-operand instruction leaves -/

/-- With SUBI_REVERSED at the spec's reading, every two-operand instruction is the shared one of its form (R90, D8). -/
theorem exec_of_aluForm_spec {i : Instr} {op : AluOp} {dst : Reg} {o : Operand} {s : State}
    (hi : aluForm i = some (op, dst, o)) (hr : s.cfg.subiReversed = false) : exec i s = aluOperand op dst o s := by
  obtain he | ⟨hrev, -⟩ := exec_of_aluForm hi s
  · exact he
  · simp [hr] at hrev

/-- A two-operand instruction completes exactly when its operand has a value (R90). -/
theorem aluOperand_completes_iff {s : State} {op : AluOp} {dst : Reg} {o : Operand} :
    (∃ t, aluOperand op dst o s = .next t) ↔ ∃ b, OperandIs s o b := by
  simp only [aluOperand_next, operandIs_iff]
  constructor
  · rintro ⟨t, b, u, hu, -⟩
    exact ⟨b, u, hu⟩
  · rintro ⟨b, u, hu⟩
    exact ⟨_, b, u, hu, rfl⟩

/-- The state that a two-operand instruction makes of the one after its operand is read differs from the one before the
read in the destination, the flags and the pc (R90, R91). -/
theorem aluEffect_of_readOperand {s u : State} {o : Operand} {b : Word} (op : AluOp) (dst : Reg)
    (h : s.readOperand o = .ok (b, u)) :
    AluEffect s ((u.writeAlu op dst (u.reg dst) b).pastOperand o) op dst (s.reg dst) b (aluResult op (s.reg dst) b)
      (s.pc + o.secondWords) := by
  obtain ⟨seen, rfl⟩ : ∃ seen, u = { s with deviceSeen := seen } := ⟨_, State.readOperand_state h⟩
  have hreg (r : Reg) : State.reg { s with deviceSeen := seen } r = s.reg r := rfl
  refine ⟨⟨by simp [hreg], fun r hr => by simp [hr, hreg]⟩, ?_, by simp, fun c => by simp, by simp [ParamsKept]⟩
  simp only [FlagsWritten, State.pastOperand_flagZ, State.pastOperand_flagC, State.pastOperand_flagM]
  exact ⟨rfl, rfl, rfl⟩

/-- A two-operand instruction that completes on an operand with the value `b` leaves its result on `b` (R90, R91). -/
theorem aluOperand_effect {s t : State} {op : AluOp} {dst : Reg} {o : Operand} {b : Word} (hb : OperandIs s o b)
    (h : aluOperand op dst o s = .next t) :
    AluEffect s t op dst (s.reg dst) b (aluResult op (s.reg dst) b) (s.pc + o.secondWords) := by
  obtain ⟨u, hu⟩ := operandIs_iff.1 hb
  obtain ⟨b', u', hu', rfl⟩ := aluOperand_next.1 h
  obtain ⟨rfl, rfl⟩ : b = b' ∧ u = u' := by simpa [hu] using hu'
  exact aluEffect_of_readOperand op dst hu

/-! ### The statement -/

/-- Settles O27: the fields of a word select a row of the op-code map, and the instruction of that row is the shared
two-operand instruction of its form. -/
theorem twoOperandModel : Obligations.TwoOperandModel := by
  refine ⟨fun cfg iw w2 op hc hop => decode_of_drawnAluOp w2 hc hop, fun i op dst o s hi hr => ?_⟩
  rw [exec_of_aluForm_spec hi hr]
  refine ⟨aluOperand_completes_iff, fun b t hb ht => ?_⟩
  obtain ⟨hreg, -, -, hmem, -⟩ := aluOperand_effect hb ht
  exact ⟨hreg, hmem⟩

end Sys2Proof.Machine
end

section
/-! PROOFS. Class 10 (42_jump.md): the first words of the jumps, where each jump goes, and that it changes the pc only
(R120 to R127). -/

namespace Sys2Proof.Machine

/-! ### The words of a jump -/

/-- A row of class 10 fixes bits 15:11; the second word is the address, whatever bits 10:0 are (R57, R58, R120). -/
theorem decode_jumpRow {cfg : Config} {iw value : Word} {op : Op} (target : Word) (rest : List Word)
    (hc : cfg.unusedFields = .ignore) (hm : ⟨op, value, 0xF800#16, 2⟩ ∈ opTable) (h : iw &&& 0xF800#16 = value) :
    decode cfg (iw :: target :: rest) = .ok (assemble cfg op iw target, rest) :=
  decode_twoWords target rest (decodeFirst_of_ignore hc hm h) rfl

/-! ### What a jump leaves -/

/-- Setting the pc leaves all other architectural state as it was. -/
theorem jumpEffect_setPc (s : State) (p : Word) : JumpEffect s (s.setPc p) p :=
  ⟨State.setPc_pc s p, State.setPc_reg s p, ⟨State.setPc_flagZ s p, State.setPc_flagC s p, State.setPc_flagM s p⟩,
    fun c => congrArg (Memory.byteAt · c) (State.setPc_mem s p), State.setPc_cfg s p⟩

/-- A jump completes, at its target when it is taken and else past its second word (R120). -/
theorem exec_jump_effect {i : Instr} {s : State} {taken : Bool} {target : Word}
    (hi : jumpForm s i = some (taken, target)) :
    ∃ t, exec i s = .next t ∧ JumpEffect s t (if taken then target else s.pc + 1#16) := by
  rw [exec_of_jumpForm hi]
  exact ⟨_, jumpIf_next.2 rfl, jumpEffect_setPc s _⟩

/-- A jump that is taken on a flag that is 0 goes past its second word when that flag is 1 (R123, R125, R127). -/
theorem exec_jump_on_clear_effect {i : Instr} {s : State} {flag : Bool} {target : Word}
    (hi : jumpForm s i = some (!flag, target)) :
    ∃ t, exec i s = .next t ∧ JumpEffect s t (if flag then s.pc + 1#16 else target) := by
  have hpc : (if !flag then target else s.pc + 1#16) = if flag then s.pc + 1#16 else target := by
    cases flag <;> rfl
  exact hpc ▸ exec_jump_effect hi

/-! ### The statements -/

/-- Settles O30: the fixed bits select the row, and `j` is the jump that is always taken. -/
theorem jumpUnconditional : Obligations.JumpUnconditional :=
  ⟨fun _ _ target rest hc h => decode_jumpRow (op := .j) target rest hc (by decide) h,
    fun target _ => exec_jump_effect (i := .j target) rfl⟩

/-- Settles O31: the fixed bits select the row, and each of the six is the shared jump on its flag, or on the negation of
its flag. -/
theorem conditionalJumps : Obligations.ConditionalJumps := by
  refine ⟨fun cfg iw target rest hc => ?_, fun target s => ?_⟩
  · exact ⟨decode_jumpRow (op := .jz) target rest hc (by decide),
      decode_jumpRow (op := .jnz) target rest hc (by decide),
      decode_jumpRow (op := .jc) target rest hc (by decide),
      decode_jumpRow (op := .jnc) target rest hc (by decide),
      decode_jumpRow (op := .jm) target rest hc (by decide),
      decode_jumpRow (op := .jnm) target rest hc (by decide)⟩
  · exact ⟨exec_jump_effect (i := .jz target) rfl, exec_jump_on_clear_effect (i := .jnz target) rfl,
      exec_jump_effect (i := .jc target) rfl, exec_jump_on_clear_effect (i := .jnc target) rfl,
      exec_jump_effect (i := .jm target) rfl, exec_jump_on_clear_effect (i := .jnm target) rfl⟩

end Sys2Proof.Machine
end

section
/-! PROOFS. The encoding (30_encoding.md): the encoder against the decoder (R57, R58), the row a first word selects, the
reserved words (R60) and the lengths (R55). -/

namespace Sys2Proof.Machine

/-! ### Register fields -/

/-- The three register fields do not overlap: a number placed in one is read back from it, and leaves the others 0
(R51). -/
theorem extractLsb'_placeReg (r : Reg) :
    ∀ lo ∈ [8, 3, 0], ∀ lo' ∈ [8, 3, 0],
      (placeReg r lo').extractLsb' lo 3 = if lo' = lo then BitVec.ofNat 3 r.val else 0#3 := by
  revert r
  decide

theorem regField_eq_iff {iw : Word} {lo : Nat} {r : Reg} :
    regField iw lo = r ↔ iw.extractLsb' lo 3 = BitVec.ofNat 3 r.val := by
  rw [regField, Fin.ext_iff, ← BitVec.toNat_inj, BitVec.toNat_ofNat, Nat.mod_eq_of_lt r.isLt]

/-- A register number read from a field and placed there again gives the bits of the field (R51). -/
theorem placeReg_regField (iw : Word) : ∀ lo ∈ [8, 3, 0], placeReg (regField iw lo) lo = iw &&& (0x0007#16 <<< lo) := by
  intro lo hlo
  have hfield : BitVec.ofNat 16 (regField iw lo).val = iw >>> lo &&& 0x0007#16 := by
    refine BitVec.eq_of_toNat_eq ?_
    have hmod : iw.toNat >>> lo &&& 7 = iw.toNat >>> lo % 8 := Nat.and_two_pow_sub_one_eq_mod _ 3
    simp [regField, hmod]
    omega
  rw [placeReg, hfield]
  simp only [List.mem_cons, List.not_mem_nil, or_false] at hlo
  obtain rfl | rfl | rfl := hlo <;> ext i hi <;> interval_cases i <;> simp

/-! ### Decoding what was encoded -/

/-- The row of each instruction: its encoding fits it. -/
theorem encodeRow (i : Instr) : Laws.EncodeRow.Statement i :=
  match i with
  | .li dst imm => Laws.EncodeRow.li dst imm
  | .lr dst src1 => Laws.EncodeRow.lr dst src1
  | .lx dst disp src1 src2 => Laws.EncodeRow.lx dst disp src1 src2
  | .ldn dst disp src1 src2 => Laws.EncodeRow.ldn dst disp src1 src2
  | .stx disp dst1 src => Laws.EncodeRow.stx disp dst1 src
  | .sdn disp dst1 src => Laws.EncodeRow.sdn disp dst1 src
  | .addi dst imm => Laws.EncodeRow.addi dst imm
  | .addr dst src1 => Laws.EncodeRow.addr dst src1
  | .addx dst disp src1 src2 => Laws.EncodeRow.addx dst disp src1 src2
  | .addn dst disp src1 src2 => Laws.EncodeRow.addn dst disp src1 src2
  | .subi dst imm => Laws.EncodeRow.subi dst imm
  | .subr dst src1 => Laws.EncodeRow.subr dst src1
  | .subx dst disp src1 src2 => Laws.EncodeRow.subx dst disp src1 src2
  | .subn dst disp src1 src2 => Laws.EncodeRow.subn dst disp src1 src2
  | .andi dst imm => Laws.EncodeRow.andi dst imm
  | .andr dst src1 => Laws.EncodeRow.andr dst src1
  | .andx dst disp src1 src2 => Laws.EncodeRow.andx dst disp src1 src2
  | .andn dst disp src1 src2 => Laws.EncodeRow.andn dst disp src1 src2
  | .ori dst imm => Laws.EncodeRow.ori dst imm
  | .orr dst src1 => Laws.EncodeRow.orr dst src1
  | .orx dst disp src1 src2 => Laws.EncodeRow.orx dst disp src1 src2
  | .orn dst disp src1 src2 => Laws.EncodeRow.orn dst disp src1 src2
  | .cmp reg => Laws.EncodeRow.cmp reg
  | .j target => Laws.EncodeRow.j target
  | .jz target => Laws.EncodeRow.jz target
  | .jnz target => Laws.EncodeRow.jnz target
  | .jc target => Laws.EncodeRow.jc target
  | .jnc target => Laws.EncodeRow.jnc target
  | .jm target => Laws.EncodeRow.jm target
  | .jnm target => Laws.EncodeRow.jnm target
  | .jal lnk disp => Laws.EncodeRow.jal lnk disp
  | .jr lnk => Laws.EncodeRow.jr lnk

/-- The register fields and the second word of an encoding are the operands of its instruction. -/
theorem assemble_encode (cfg : Config) (i : Instr) :
    assemble cfg i.op ((encode cfg i).headD 0x0000#16) ((encode cfg i).getD 1 0x0000#16) = i := by
  cases i
  case stx | sdn =>
    cases h : cfg.storeData <;>
      simp [encode, Instr.op, assemble, storeDataLo, h, regField_eq_iff, BitVec.extractLsb'_or, extractLsb'_placeReg]
  all_goals
    simp [encode, Instr.op, assemble, threeRegs, regField_eq_iff, BitVec.extractLsb'_or, extractLsb'_placeReg]

/-- The encoder sets no unused bit, so that every policy accepts its first words (R57). -/
theorem decodeFirst_of_fitsRow {cfg : Config} {row : OpRow} {iw : Word} {tail : List Word} (hm : row ∈ opTable)
    (h : Laws.FitsRow cfg row (iw :: tail)) : decodeFirst cfg iw = .ok row := by
  obtain ⟨hfixed, hunused⟩ := h.2 iw rfl
  refine decodeFirst_ok.2 ⟨findRow_of_mem hm hfixed, ?_⟩
  unfold unusedAccepted
  split
  · rfl
  · simp [hunused]

/-- Settles O1: the first word selects the instruction's row, and `assemble` undoes the encoder. -/
theorem decodeOfEncodeIsTheInstruction : Obligations.DecodeOfEncodeIsTheInstruction := by
  intro cfg i rest
  obtain ⟨row, hm, hop, hfits⟩ := encodeRow i cfg
  have hi := assemble_encode cfg i
  rw [← hop] at hi
  obtain hw | hw := opTable_words hm
  · obtain ⟨iw, he⟩ := List.length_eq_one_iff.1 (hfits.1.trans hw)
    rw [he] at hfits hi ⊢
    rw [List.singleton_append, decode_oneWord rest (decodeFirst_of_fitsRow hm hfits) hw]
    exact congrArg (fun i => Except.ok (i, rest)) hi
  · obtain ⟨iw, w2, he⟩ := List.length_eq_two.1 (hfits.1.trans hw)
    rw [he] at hfits hi ⊢
    rw [List.cons_append, List.singleton_append, decode_twoWords w2 rest (decodeFirst_of_fitsRow hm hfits) hw]
    exact congrArg (fun i => Except.ok (i, rest)) hi

/-- No two instructions have the same encoding. -/
theorem encode_injective {cfg : Config} {i k : Instr} (h : encode cfg i = encode cfg k) : i = k := by
  have hi := decodeOfEncodeIsTheInstruction cfg i []
  rw [h, decodeOfEncodeIsTheInstruction cfg k []] at hi
  cases hi
  rfl

/-! ### Encoding what was decoded -/

/-- What the decoder read, when it read an instruction: the first word, and the second for a two-word row (R55). -/
theorem decode_ok {cfg : Config} {ws rest : List Word} {i : Instr} (h : decode cfg ws = .ok (i, rest)) :
    ∃ iw row, decodeFirst cfg iw = .ok row ∧
      (row.words = 1 ∧ ws = iw :: rest ∧ i = assemble cfg row.op iw 0x0000#16 ∨
        row.words = 2 ∧ ∃ w2, ws = iw :: w2 :: rest ∧ i = assemble cfg row.op iw w2) := by
  cases ws with
  | nil => simp [decode] at h
  | cons iw tail =>
    cases hrow : decodeFirst cfg iw with
    | error e => simp [decode, hrow] at h
    | ok row =>
      refine ⟨iw, row, hrow, ?_⟩
      obtain hw | hw := opTable_words (findRow_some (decodeFirst_ok.1 hrow).1).1
      · rw [decode_oneWord tail hrow hw] at h
        cases h
        exact .inl ⟨hw, rfl, rfl⟩
      · cases tail with
        | nil => simp [decode, hrow, hw] at h
        | cons w2 tail =>
          rw [decode_twoWords w2 tail hrow hw] at h
          cases h
          exact .inr ⟨hw, w2, rfl, rfl⟩

/-- The bits of a first word that are not unused are those its row fixes and those of the register fields (R57). -/
theorem and_not_unusedBits {cfg : Config} {iw : Word} {row : OpRow} (h : iw &&& row.mask = row.value) :
    iw &&& ~~~unusedBits cfg row = row.value ||| iw &&& operandBits cfg row.op := by
  rw [unusedBits, BitVec.not_not, BitVec.and_or_distrib_left, h]

/-- The encoder puts back the fixed bits of a row, the register fields that `assemble` read, and the second word of a
two-word row. -/
theorem encode_assemble (cfg : Config) {row : OpRow} (iw w2 : Word) (hm : row ∈ opTable) :
    encode cfg (assemble cfg row.op iw w2) =
      (row.value ||| iw &&& operandBits cfg row.op) :: if row.words = 1 then [] else [w2] := by
  obtain ⟨op, value, mask, words⟩ := row
  cases op <;> simp [opTable] at hm <;> obtain ⟨rfl, rfl, rfl⟩ := hm
  case stx | sdn =>
    cases h : cfg.storeData <;>
      simp [encode, assemble, operandBits, storeDataLo, h, placeReg_regField, BitVec.or_assoc,
        ← BitVec.and_or_distrib_left]
  all_goals
    simp [encode, assemble, operandBits, threeRegs, placeReg_regField, BitVec.or_assoc, ← BitVec.and_or_distrib_left]

/-- Settles O2: what `assemble` took from a first word is all but its unused bits, and the encoder puts it back. -/
theorem encodeOfDecodeClearsOnlyUnusedBits : Obligations.EncodeOfDecodeClearsOnlyUnusedBits := by
  intro cfg ws i rest h
  obtain ⟨iw, row, hrow, hi⟩ := decode_ok h
  obtain ⟨hfind, -⟩ := decodeFirst_ok.1 hrow
  obtain ⟨hm, hfixed⟩ := findRow_some hfind
  obtain ⟨hw, rfl, rfl⟩ | ⟨hw, w2, rfl, rfl⟩ := hi
  · refine ⟨iw, row, [], rfl, hfind, hw.symm, ?_⟩
    rw [encode_assemble cfg iw _ hm, and_not_unusedBits hfixed, if_pos hw]
  · refine ⟨iw, row, [w2], rfl, hfind, hw.symm, ?_⟩
    rw [encode_assemble cfg iw _ hm, and_not_unusedBits hfixed, if_neg (by omega)]

/-! ### Which row a first word selects -/

/-- Settles O3: a word with a row's fixed bits selects that row, and a word selects one row at most. -/
theorem firstWordSelectsItsOpcodeRow : Obligations.FirstWordSelectsItsOpcodeRow := by
  refine ⟨fun iw row hm => ⟨fun h => (findRow_some h).2, findRow_of_mem hm⟩, fun iw row row' hm hm' h h' => ?_⟩
  exact Option.some.inj ((findRow_of_mem hm h).symm.trans (findRow_of_mem hm' h'))

/-- Settles O6: the two words select one row, and the instructions they decode to have one encoding. -/
theorem unusedBitsDoNotMatter : Obligations.UnusedBitsDoNotMatter := by
  intro cfg iw iw' w2 row hc hfind hbits
  obtain ⟨hm, hfixed⟩ := findRow_some hfind
  have hfixed' : iw' &&& row.mask = row.value := by
    have hmask : ~~~unusedBits cfg row &&& row.mask = row.mask := by
      rw [unusedBits, BitVec.not_not]
      ext i
      simp +contextual
    rw [← hfixed, ← hmask, ← BitVec.and_assoc, hbits, BitVec.and_assoc]
  have hsame (w : Word) : assemble cfg row.op iw' w = assemble cfg row.op iw w := by
    apply encode_injective (cfg := cfg)
    rw [encode_assemble cfg iw' w hm, encode_assemble cfg iw w hm, ← and_not_unusedBits hfixed,
      ← and_not_unusedBits hfixed', hbits]
  have hrow := decodeFirst_of_ignore hc hm hfixed
  have hrow' := decodeFirst_of_ignore hc hm hfixed'
  obtain hw | hw := opTable_words hm
  · rw [decode_oneWord [w2] hrow hw, decode_oneWord [w2] hrow' hw, hsame]
  · rw [decode_twoWords w2 [] hrow hw, decode_twoWords w2 [] hrow' hw, hsame]

/-! ### Reserved words and lengths

What a first word selects, whether it is reserved and how long its instruction is depend on its bits 15:11 and 7:6 only,
so that 128 words stand for all. -/

/-- The bits of a first word that any row fixes. -/
def selector (iw : Word) : Word := iw &&& 0xF8C0#16

theorem selector_and (iw mask : Word) (h : 0xF8C0#16 &&& mask = mask) : selector iw &&& mask = iw &&& mask := by
  rw [selector, BitVec.and_assoc, h]

theorem opTable_mask : ∀ row ∈ opTable, 0xF8C0#16 &&& row.mask = row.mask := by
  decide

theorem findRow_selector (iw : Word) : findRow (selector iw) = findRow iw := by
  refine List.find?_congr fun row hm => ?_
  rw [selector_and iw row.mask (opTable_mask row hm)]

/-- A block of whole values of bits 15:11. -/
theorem within_iff (iw : Word) (lo hi : Nat) :
    iw.within (2048 * lo) (2048 * hi + 2047) = decide (lo ≤ (iw >>> 11).toNat ∧ (iw >>> 11).toNat ≤ hi) := by
  simp only [Word.within, BitVec.toNat_ushiftRight, Nat.shiftRight_eq_div_pow, Bool.decide_and]
  congr 1 <;> exact decide_eq_decide.2 (by omega)

theorem selector_shift (iw : Word) (n : Nat) (h : 0xF8C0#16 >>> n = 0xFFFF#16 >>> n) :
    selector iw >>> n = iw >>> n := by
  rw [selector, BitVec.ushiftRight_and_distrib, h, ← BitVec.ushiftRight_and_distrib]
  exact congrArg (fun w : Word => w >>> n) BitVec.and_allOnes

theorem reserved_selector (iw : Word) : (selector iw).reserved = iw.reserved := by
  have hwithin (lo hi : Nat) :
      (selector iw).within (2048 * lo) (2048 * hi + 2047) = iw.within (2048 * lo) (2048 * hi + 2047) := by
    rw [within_iff, within_iff, selector_shift iw 11 (by decide)]
  have hstore := selector_and iw 0xF880#16 (by decide)
  unfold Word.reserved
  rw [hstore]
  exact congrArg₂ or (congrArg₂ or (congrArg₂ or (congrArg₂ or (hwithin 0 0) rfl) (hwithin 3 7)) (hwithin 13 15))
    (hwithin 16 16)

theorem instrLength_selector (iw : Word) : (selector iw).instrLength = iw.instrLength := by
  simp only [Word.instrLength, selector_shift iw 14 (by decide), selector_and iw 0x00C0#16 (by decide),
    selector_and iw 0x3800#16 (by decide), selector_and iw 0x2000#16 (by decide)]

/-- The word with `k` in bits 15:11, `m` in bits 7:6 and 0 elsewhere. -/
def fieldsWord (k m : Nat) : Word := BitVec.ofNat 16 k <<< 11 ||| BitVec.ofNat 16 m <<< 6

theorem selector_eq_fieldsWord (iw : Word) : selector iw = fieldsWord (iw.toNat / 2048) (iw.toNat / 64 % 4) :=
  and_aluMask iw

/-- The op-code map against R55 and R60 on the words that stand for all. -/
theorem findRow_fieldsWord :
    ∀ (k : Fin 32) (m : Fin 4),
      (findRow (fieldsWord k m)).map OpRow.words =
        if (fieldsWord k m).reserved then none else some (fieldsWord k m).instrLength := by
  decide

/-- The op-code map selects no row for the words that R60 lists as reserved, and for any other word a row of the length
that R55 reads from it. -/
theorem findRow_words (iw : Word) :
    (findRow iw).map OpRow.words = if iw.reserved then none else some iw.instrLength := by
  have hk : iw.toNat / 2048 < 32 := by have := iw.isLt; omega
  have hfields := findRow_fieldsWord ⟨_, hk⟩ ⟨iw.toNat / 64 % 4, Nat.mod_lt _ (by decide)⟩
  rwa [← selector_eq_fieldsWord, findRow_selector, reserved_selector, instrLength_selector] at hfields

/-- Settles O4: a row is selected exactly where the word is not reserved. -/
theorem unselectedWordsAreExactlyTheReserved : Obligations.UnselectedWordsAreExactlyTheReserved := by
  intro iw
  have hnone : findRow iw = none ↔ (findRow iw).map OpRow.words = none := Option.map_eq_none_iff.symm
  rw [hnone, findRow_words]
  cases iw.reserved <;> simp

/-- The words of a selected row are as many as R55 says. -/
theorem instrLength_of_findRow {iw : Word} {row : OpRow} (h : findRow iw = some row) :
    iw.reserved = false ∧ iw.instrLength = row.words := by
  have hw := findRow_words iw
  rw [h] at hw
  cases hr : iw.reserved <;> simp [hr] at hw
  exact ⟨rfl, hw.symm⟩

/-- Settles O5: the row that the first word selects has the length R55 reads from it. -/
theorem wordsDecodeExactlyWhenWellFormed : Obligations.WordsDecodeExactlyWhenWellFormed := by
  intro cfg ws hc
  constructor
  · rintro ⟨i, h⟩
    obtain ⟨iw, row, hrow, hi⟩ := decode_ok h
    obtain ⟨hres, hlen⟩ := instrLength_of_findRow (decodeFirst_ok.1 hrow).1
    obtain ⟨hw, rfl, -⟩ | ⟨hw, w2, rfl, -⟩ := hi <;> simp [Encoded.wf, hres, hlen, hw]
  · intro h
    cases ws with
    | nil => simp [Encoded.wf] at h
    | cons iw rest =>
      obtain ⟨hres, hlen⟩ : iw.reserved = false ∧ rest.length + 1 = iw.instrLength := by simpa [Encoded.wf] using h
      obtain ⟨row, hfind⟩ : ∃ row, findRow iw = some row :=
        Option.ne_none_iff_exists'.1 fun hn => by simp [(unselectedWordsAreExactlyTheReserved iw).1 hn] at hres
      have hrow : decodeFirst cfg iw = .ok row := decodeFirst_ok.2 ⟨hfind, by simp [unusedAccepted, hc]⟩
      rw [(instrLength_of_findRow hfind).2] at hlen
      obtain hw | hw := opTable_words (findRow_some hfind).1
      · obtain rfl : rest = [] := List.length_eq_zero_iff.1 (by omega)
        exact ⟨_, decode_oneWord [] hrow hw⟩
      · obtain ⟨w2, rfl⟩ : ∃ w2, rest = [w2] := List.length_eq_one_iff.1 (by omega)
        exact ⟨_, decode_twoWords w2 [] hrow hw⟩

/-! ### Fields and examples -/

/-- Settles O7: three bits taken from a number are the number divided and taken modulo 8. -/
theorem registerFieldsAreTheDrawnBits : Obligations.RegisterFieldsAreTheDrawnBits := by
  intro iw
  simp [regField, BitVec.extractLsb'_toNat, Nat.shiftRight_eq_div_pow]

/-- Settles O8: each of the words by evaluation. -/
theorem specWordsDecode : Obligations.SpecWordsDecode :=
  ⟨rfl, rfl, rfl, rfl, rfl, rfl, rfl, rfl, rfl⟩

end Sys2Proof.Machine
end

section
/-! PROOFS. The memory map (20_memory.md section 3): what an access gives and leaves at each kind of address (R36, R37,
R147, R148), and that a well-formed map gives each address one kind. -/

namespace Sys2Proof.Machine

/-! ### MEM_MAP -/

/-- Where MEM_MAP lets a write go on, away from a device, is read/write memory (R37). -/
theorem mapStop_write_none {cfg : Config} {a : Word} (hd : onDevice cfg a = false) (h : mapStop cfg a .write = none) :
    regionKind cfg a = .readWrite := by
  unfold mapStop at h
  unfold onDevice at hd
  cases hk : regionKind cfg a <;> simp_all

/-- A read at a device goes on (R36). -/
theorem State.memRead_device {s : State} {a : Word} (h : onDevice s.cfg a = true) :
    s.memRead a = .ok (Config.freeDeviceWord s.deviceSeen a) :=
  State.memRead_ok.2 (.inl ⟨h, rfl⟩)

/-- A read at memory that MEM_MAP lets be read gives the word there, if it has a value (R32). -/
theorem State.memRead_ok_of_memory {s : State} {a v : Word} (hd : onDevice s.cfg a = false)
    (hr : mapStop s.cfg a .read = none) : s.memRead a = .ok v ↔ Memory.wordAt s.mem a = some v := by
  simp [State.memRead_ok, hd, hr]

theorem Region.covers_iff {r : Region} {a : Word} :
    Region.covers r a = true ↔ r.base ≤ a.toNat ∧ a.toNat < r.base + r.size := by
  simp [Region.covers]

/-- Two regions of a well-formed map that cover one address are one region. -/
theorem region_unique {cfg : Config} {r q : Region} {a : Word} (hwf : cfg.wf = true) (hr : r ∈ cfg.memMap)
    (hq : q ∈ cfg.memMap) (hra : Region.covers r a = true) (hqa : Region.covers q a = true) : r = q := by
  obtain ⟨-, hapart⟩ : cfg.memMap.all Region.wf = true ∧ cfg.memMap.Pairwise (fun r q => r.apart q = true) := by
    simpa [Config.wf] using hwf
  have hsymm : Std.Symm fun r q : Region => r.apart q = true :=
    ⟨fun r q h => by simpa [Region.apart, or_comm] using h⟩
  by_contra hne
  have h := hapart.forall hr hq hne
  simp only [Region.apart, Bool.or_eq_true, decide_eq_true_eq] at h
  have := Region.covers_iff.1 hra
  have := Region.covers_iff.1 hqa
  omega

/-- Settles O17: the first region that covers an address is the only one. -/
theorem wellFormedMapSaysOneThing : Obligations.WellFormedMapSaysOneThing := by
  intro cfg a hwf
  refine ⟨fun r hr hlo hhi => ?_, fun hnone => ?_⟩
  · have hra := Region.covers_iff.2 ⟨hlo, hhi⟩
    cases hq : cfg.memMap.find? fun r => Region.covers r a with
    | none => exact absurd hra (List.find?_eq_none.1 hq r hr)
    | some q =>
      have hqa : Region.covers q a = true := List.find?_some (p := fun r => Region.covers r a) hq
      have hqr := region_unique hwf (List.mem_of_find?_eq_some hq) hr hqa hra
      simp [regionKind, hq, hqr]
  · have hq : cfg.memMap.find? (fun r => Region.covers r a) = none := by
      refine List.find?_eq_none.2 fun r hr hc => ?_
      have := hnone r hr
      have := Region.covers_iff.1 hc
      omega
    simp [regionKind, hq]

/-! ### What devices see of one access -/

theorem DevicesSee.refl (s : State) : DevicesSee s s [] := by
  simp [DevicesSee]

theorem DevicesSee.trans {s t u : State} {xs ys : List Access} (h : DevicesSee s t xs) (hc : t.cfg = s.cfg)
    (h' : DevicesSee t u ys) : DevicesSee s u (xs ++ ys) := by
  unfold DevicesSee at h h' ⊢
  rw [h', h, hc, List.filter_append, List.append_assoc]

/-- A read is seen where it is made at a device (R36). -/
theorem State.afterRead_devicesSee (s : State) (a : Word) : DevicesSee s (s.afterRead a) [.read a] := by
  cases hd : onDevice s.cfg a <;> simp [DevicesSee, Access.atDevice, hd]

/-- A write is seen where it is made at a device (R36). -/
theorem State.memWrite_devicesSee {s t : State} {a v : Word} (h : s.memWrite a v = .ok t) :
    DevicesSee s t [.write a v] := by
  obtain ⟨-, rfl⟩ := State.memWrite_ok.1 h
  cases hd : onDevice s.cfg a <;> simp [DevicesSee, Access.atDevice, hd]

/-! ### The statements -/

/-- Settles O52: a read leaves the state as it was but for the device history. -/
theorem readsChangeOnlyWhatDevicesSee : Obligations.ReadsChangeOnlyWhatDevicesSee := by
  intro s a
  exact ⟨State.afterRead_pc s a, State.afterRead_reg s a,
    ⟨State.afterRead_flagZ s a, State.afterRead_flagC s a, State.afterRead_flagM s a⟩,
    fun c => congrArg (Memory.byteAt · c) (State.afterRead_mem s a), State.afterRead_cfg s a,
    State.afterRead_devicesSee s a⟩

/-- Settles O16: each kind of address fixes what MEM_MAP says of a read and of a write. -/
theorem mapDecidesEachAccess : Obligations.MapDecidesEachAccess := by
  intro s a v
  refine ⟨fun hk => ?_, fun hk => ?_, fun hk => ?_, fun hk => ?_⟩
  · have hd : onDevice s.cfg a = false := by simp [onDevice, hk]
    exact ⟨State.memRead_error.2 ⟨hd, .inl (by simp [mapStop, hk])⟩, State.memWrite_error.2 (by simp [mapStop, hk])⟩
  · have hd : onDevice s.cfg a = false := by simp [onDevice, hk]
    exact ⟨State.memRead_ok_of_memory hd (by simp [mapStop, hk]), State.memWrite_error.2 (by simp [mapStop, hk])⟩
  · have hd : onDevice s.cfg a = true := onDevice_iff.2 hk
    have hw : s.memWrite a v = .ok (s.deviceSees (.write a v)) :=
      State.memWrite_ok.2 ⟨mapStop_device hd .write, by rw [if_pos hd]⟩
    exact ⟨⟨_, State.memRead_device hd⟩, _, hw, rfl, fun _ => rfl, ⟨rfl, rfl, rfl⟩, fun _ => rfl, rfl,
      State.memWrite_devicesSee hw⟩
  · have hd : onDevice s.cfg a = false := by simp [onDevice, hk]
    exact ⟨State.memRead_ok_of_memory hd (by simp [mapStop, hk]), _, State.memWrite_ok.2 ⟨by simp [mapStop, hk], rfl⟩⟩

/-- Settles O18: at such an address MEM_MAP stops no read, so that the missing word does. -/
theorem undefinedWordReadFaults : Obligations.UndefinedWordReadFaults := by
  intro s a hk hw
  refine State.memRead_error.2 ?_
  obtain hk | hk := hk <;> exact ⟨by simp [onDevice, hk], .inr ⟨by simp [mapStop, hk], hw, rfl⟩⟩

/-- Settles O22: each sum of words is the sum of their numbers modulo 65536. -/
theorem effectiveAddressesWrap : Obligations.EffectiveAddressesWrap := by
  intro s disp a b
  simp [State.effAddr, State.storeAddr, BitVec.toNat_add]

end Sys2Proof.Machine
end

section
/-! PROOFS. The instruction cycle (10_state.md section 2): what a step does by what its fetch reads (R13), and the states
that no step changes (R121, R169). -/

namespace Sys2Proof.Machine

/-! ### Fetch and step -/

theorem State.fetch_oneWord {s : State} {iw : Word} {row : OpRow} (hiw : s.memRead s.pc = .ok iw)
    (hrow : decodeFirst s.cfg iw = .ok row) (hw : row.words = 1) :
    s.fetch = .ok (assemble s.cfg row.op iw 0x0000#16, s.afterRead s.pc) := by
  simp [State.fetch, hiw, hrow, hw]

theorem State.fetch_twoWords {s : State} {iw w2 : Word} {row : OpRow} (hiw : s.memRead s.pc = .ok iw)
    (hrow : decodeFirst s.cfg iw = .ok row) (hw : row.words = 2)
    (hw2 : (s.afterRead s.pc).memRead (s.pc + 1#16) = .ok w2) :
    s.fetch = .ok (assemble s.cfg row.op iw w2, (s.afterRead s.pc).afterRead (s.pc + 1#16)) := by
  simp [State.fetch, hiw, hrow, hw, hw2]

/-- A first word that the decoder rejects stops the fetch, whatever stands after it (R57, R146). -/
theorem State.fetch_rejected {s : State} {iw : Word} {e : DecodeError} (hiw : s.memRead s.pc = .ok iw)
    (he : decodeFirst s.cfg iw = .error e) : s.fetch = .error (decodeStop s.pc iw e) := by
  simp [State.fetch, hiw, he]

theorem step_halted {s : State} (h : s.halted = true) : step s = .next s := by
  simp [step, h]

theorem step_of_fetch {s u : State} {i : Instr} (hh : s.halted = false) (h : s.fetch = .ok (i, u)) :
    step s = exec i u.nextWord := by
  simp [step, hh, h]

theorem step_of_fetch_error {s : State} {stop : Stop} (hh : s.halted = false) (h : s.fetch = .error stop) :
    step s = stop.result := by
  simp [step, hh, h]

/-! ### The statements -/

/-- Settles O9: the words that decode are those that the fetch reads. -/
theorem stepRunsTheDecodedInstruction : Obligations.StepRunsTheDecodedInstruction := by
  intro s hh
  refine ⟨fun iw i hiw hi => ?_, fun iw w2 i hiw hw2 hi => ?_⟩
  · obtain ⟨iw', row, hrow, ⟨hw, he, rfl⟩ | ⟨-, w2, he, -⟩⟩ := decode_ok hi <;> cases he
    rw [step_of_fetch hh (State.fetch_oneWord hiw hrow hw), State.nextWord, State.afterRead_pc]
  · obtain ⟨iw', row, hrow, ⟨-, he, -⟩ | ⟨hw, w2', he, rfl⟩⟩ := decode_ok hi <;> cases he
    rw [step_of_fetch hh (State.fetch_twoWords hiw hrow hw hw2), State.nextWord, State.afterRead_pc,
      State.afterRead_pc]

/-- Settles O10: no row is selected, and the fetch stops before it reads a second word. -/
theorem stepOnReservedWordFaults : Obligations.StepOnReservedWordFaults := by
  intro s iw hh hiw hres
  have hnone := (unselectedWordsAreExactlyTheReserved iw).2 hres
  have he : decodeFirst s.cfg iw = .error (.reserved iw) := by simp [decodeFirst, hnone]
  rw [step_of_fetch_error hh (State.fetch_rejected hiw he)]
  rfl

/-- Settles O11: the policy accepts neither all 0 nor all 1 here. -/
theorem stepOnUnusedBitsRefuses : Obligations.StepOnUnusedBitsRefuses := by
  intro s iw row hh hpolicy hiw hrow hzeros hones
  have he : decodeFirst s.cfg iw = .error (.unusedFieldBits iw) := by
    simp [decodeFirst, hrow, unusedAccepted, hpolicy, hzeros, hones]
  rw [step_of_fetch_error hh (State.fetch_rejected hiw he)]
  rfl

/-- Two words placed at the pc are read back from the pc and the address after it, the last address included (R15). -/
theorem State.memRead_placeAtPc {s : State} (w1 w2 : Word) (hmap : s.cfg.memMap = []) :
    (s.placeAtPc [w1, w2]).memRead s.pc = .ok w1 ∧ (s.placeAtPc [w1, w2]).memRead (s.pc + 1#16) = .ok w2 := by
  have hkind (a : Word) : regionKind s.cfg a = .readWrite := by simp [regionKind, hmap]
  have hread (a v : Word) : (s.placeAtPc [w1, w2]).memRead a = .ok v ↔
      Memory.wordAt (s.placeAtPc [w1, w2]).mem a = some v :=
    State.memRead_ok_of_memory (by simp [State.placeAtPc, onDevice, hkind]) (by simp [State.placeAtPc, mapStop, hkind])
  have hne : s.pc ≠ s.pc + 1#16 := by bv_omega
  exact ⟨(hread _ _).2 (by simp [State.placeAtPc, Memory.load, hne]),
    (hread _ _).2 (by simp [State.placeAtPc, Memory.load])⟩

/-- Settles O12: the fetch reads the placed words back, and away from devices a read changes nothing. -/
theorem placedInstructionRunsNext : Obligations.PlacedInstructionRunsNext := by
  intro s nbits w i rest hh hmap hi
  obtain ⟨hr1, hr2⟩ := State.memRead_placeAtPc (tableWords nbits w).1 (tableWords nbits w).2 hmap
  have hquiet (a : Word) : (s.withFetchWord nbits w).afterRead a = s.withFetchWord nbits w :=
    State.afterRead_memory (by simp [State.withFetchWord, State.placeAtPc, onDevice, regionKind, hmap])
  have hfetch : (s.withFetchWord nbits w).fetch = .ok (i, s.withFetchWord nbits w) := by
    obtain ⟨iw, row, hrow, ⟨hw, he, rfl⟩ | ⟨hw, w2, he, rfl⟩⟩ := decode_ok hi <;> cases he
    · exact (State.fetch_oneWord (s := s.withFetchWord nbits w) hr1 hrow hw).trans (by rw [hquiet]; rfl)
    · refine (State.fetch_twoWords (s := s.withFetchWord nbits w) hr1 hrow hw ?_).trans (by rw [hquiet, hquiet]; rfl)
      rw [hquiet]
      exact hr2
  exact step_of_fetch hh hfetch

/-- Settles O13: the step looks for HALT_PC first. -/
theorem runEndsAtHaltPc : Obligations.RunEndsAtHaltPc := by
  refine ⟨fun s h => ?_, fun s h => by simp [State.halted, h]⟩
  have hh : s.halted = true := by simp [State.halted, h]
  exact ⟨step_halted hh, by simp [State.accesses, hh]⟩

/-- `j` to its own address, in memory: the step gives the state back (R121). -/
theorem step_jumpToItself {s : State} (hd : onDevice s.cfg s.pc = false) (hd' : onDevice s.cfg (s.pc + 1#16) = false)
    (hiw : s.memRead s.pc = .ok 0x8800#16) (hw2 : s.memRead (s.pc + 1#16) = .ok s.pc) : step s = .next s := by
  cases hh : s.halted with
  | true => exact step_halted hh
  | false =>
    have hi : decode s.cfg [0x8800#16, s.pc] = .ok (.j s.pc, []) := decodeOfEncodeIsTheInstruction s.cfg (.j s.pc) []
    have hstep := (stepRunsTheDecodedInstruction s hh).2 _ _ _ hiw (by rwa [State.afterRead_memory hd]) hi
    rw [State.afterRead_memory hd, State.afterRead_memory hd'] at hstep
    exact hstep

/-- Settles O14: a run from a state that the step gives back stays there. -/
theorem jumpToItselfRepeats : Obligations.JumpToItselfRepeats := by
  intro s t hd hd' hiw hw2 hrun
  induction hrun with
  | refl => rfl
  | tail _ hstep ih =>
    rw [ih, State.Steps, step_jumpToItself hd hd' hiw hw2] at hstep
    cases hstep
    rfl

end Sys2Proof.Machine
end

section
/-! PROOFS. What a step does to memory (20_memory.md sections 1, 2, 4), said once, and what follows of every run: words
that MEM_MAP protects, words that are defined, the parameters, the invariant. -/

namespace Sys2Proof.Machine

/-! ### What the reads of an operand and of a fetch keep -/

theorem State.readOperand_mem {s u : State} {o : Operand} {v : Word} (h : s.readOperand o = .ok (v, u)) :
    u.mem = s.mem := by
  rw [State.readOperand_state h]

theorem State.readOperand_cfg {s u : State} {o : Operand} {v : Word} (h : s.readOperand o = .ok (v, u)) :
    u.cfg = s.cfg := by
  rw [State.readOperand_state h]

theorem State.fetch_mem {s u : State} {i : Instr} (h : s.fetch = .ok (i, u)) : u.mem = s.mem := by
  rw [State.fetch_state h]

theorem State.fetch_cfg {s u : State} {i : Instr} (h : s.fetch = .ok (i, u)) : u.cfg = s.cfg := by
  rw [State.fetch_state h]

@[simp] theorem State.nextWord_dataAccesses (s : State) (i : Instr) : s.nextWord.dataAccesses i = s.dataAccesses i := by
  cases i <;> rfl

/-! ### The one write -/

/-- From `s` to `t` the parameters are the same, and memory is the same but for one word of read/write memory at most,
which is then replaced as a write of `accs` says (R32, R37, R39). -/
def WritesAtMost (s t : State) (accs : List Access) : Prop :=
  t.cfg = s.cfg ∧ (t.mem = s.mem ∨
    ∃ a v, Access.write a v ∈ accs ∧ regionKind s.cfg a = .readWrite ∧ t.mem = Memory.setWord s.mem a v)

theorem WritesAtMost.of_same {s t : State} (accs : List Access) (hc : t.cfg = s.cfg) (hm : t.mem = s.mem) :
    WritesAtMost s t accs :=
  ⟨hc, .inl hm⟩

theorem WritesAtMost.nextWord {s t : State} {accs : List Access} (h : WritesAtMost s t accs) :
    WritesAtMost s t.nextWord accs :=
  h

/-- A write that goes on replaces its word, or no word where a device takes it. -/
theorem State.memWrite_writesAtMost {s u : State} {a v : Word} {accs : List Access} (h : s.memWrite a v = .ok u)
    (hw : Access.write a v ∈ accs) : WritesAtMost s u accs := by
  obtain ⟨hstop, rfl⟩ := State.memWrite_ok.1 h
  cases hd : onDevice s.cfg a with
  | true => exact .of_same accs rfl rfl
  | false => exact ⟨rfl, .inr ⟨a, v, hw, mapStop_write_none hd hstop, rfl⟩⟩

/-- An instruction writes memory as its data accesses say. -/
theorem exec_writesAtMost {i : Instr} {s t : State} (h : exec i s = .next t) :
    WritesAtMost s t (s.dataAccesses i) := by
  obtain ⟨dst, o, v, u, -, hu, rfl⟩ | ⟨disp, dst1, src, u, rfl, hu, rfl⟩ | ⟨disp, dst1, src, ptr, u, rfl, hp, hu, rfl⟩ |
    ⟨op, dst, o, v, u, a, b, -, hu, rfl⟩ | ⟨reg, f, -, rfl⟩ | ⟨taken, target, -, rfl⟩ | ⟨lnk, disp, -, rfl⟩ |
    ⟨lnk, target, -, -, rfl⟩ := exec_next h
  · exact .of_same _ (by simp [State.readOperand_cfg hu]) (by simp [State.readOperand_mem hu])
  · exact (State.memWrite_writesAtMost hu (by simp [State.dataAccesses])).nextWord
  · have hw : WritesAtMost (s.afterRead (s.storeAddr disp dst1)) u (s.dataAccesses (.sdn disp dst1 src)) :=
      State.memWrite_writesAtMost hu (by simp [State.dataAccesses, State.afterPointer_ok hp])
    simpa [WritesAtMost] using hw.nextWord
  · exact .of_same _ (by simp [State.readOperand_cfg hu]) (by simp [State.readOperand_mem hu])
  · exact .of_same _ rfl rfl
  · exact .of_same _ rfl rfl
  · exact .of_same _ rfl rfl
  · exact .of_same _ (by simp) (by simp)

/-- A step writes memory as the accesses of its cycle say. -/
theorem step_writesAtMost {s t : State} (h : step s = .next t) : WritesAtMost s t s.accesses := by
  obtain ⟨-, rfl⟩ | ⟨hh, i, u, hf, he⟩ := step_next.1 h
  · exact .of_same _ rfl rfl
  · obtain ⟨hc, hm⟩ := exec_writesAtMost he
    rw [State.nextWord_cfg, State.fetch_cfg hf] at hc hm
    rw [State.nextWord_mem, State.fetch_mem hf, State.nextWord_dataAccesses] at hm
    refine ⟨hc, hm.imp_right ?_⟩
    rintro ⟨a, v, hw, hk, hv⟩
    exact ⟨a, v, by rw [State.accesses_of_fetch hh hf]; exact List.mem_append_right _ hw, hk, hv⟩

/-- Settles O42: memory outside the word of the step's write access is as before. -/
theorem stepWritesOnlyItsWriteAccess : Obligations.StepWritesOnlyItsWriteAccess := by
  intro s t c h hc
  obtain ⟨-, hm | ⟨a, v, hw, hk, hm⟩⟩ := step_writesAtMost h
  · rw [hm]
  · obtain ⟨hl, hh⟩ := hc a v hw (by simp [onDevice, hk])
    rw [hm, Memory.byteAt_setWord_of_ne _ a v c hl hh]

/-! ### Runs -/

/-- What holds at the start of a run and is kept by every step holds along the run. -/
theorem State.Reaches.keeps {P : State → Prop} (hstep : ∀ u w : State, step u = .next w → P u → P w) {s t : State}
    (h : s.Reaches t) (h0 : P s) : P t := by
  induction h with
  | refl => exact h0
  | tail _ hs ih => exact hstep _ _ hs ih

/-- Settles O44: no step changes a parameter. -/
theorem parametersNeverChange : Obligations.ParametersNeverChange := by
  intro s t h
  exact h.keeps (P := fun u => u.cfg = s.cfg) (fun u w hs hu => (step_writesAtMost hs).1.trans hu) rfl

/-- Settles O48: a step replaces one word at most, which keeps the canonical form, and no parameter. -/
theorem stepKeepsTheInvariant : Obligations.StepKeepsTheInvariant := by
  rintro s t ⟨hmem, hmap⟩ h
  obtain ⟨hc, hm⟩ := step_writesAtMost h
  refine ⟨?_, hc ▸ hmap⟩
  obtain hm | ⟨a, v, -, -, hm⟩ := hm
  · exact hm ▸ hmem
  · exact hm ▸ Memory.setWord_wf a v hmem

/-- Settles O50: the word a step replaces is one of read/write memory, by a MEM_MAP that no step changes. -/
theorem noRunChangesAWordThatIsNotWritable : Obligations.NoRunChangesAWordThatIsNotWritable := by
  intro s t a h hk
  refine (h.keeps (P := fun u => u.cfg = s.cfg ∧ Memory.wordAt u.mem a = Memory.wordAt s.mem a) ?_ ⟨rfl, rfl⟩).2
  rintro u w hs ⟨hcu, hau⟩
  obtain ⟨hc, hm⟩ := step_writesAtMost hs
  refine ⟨hc.trans hcu, ?_⟩
  obtain hm | ⟨b, v, -, hb, hm⟩ := hm
  · rw [hm, hau]
  · have hab : a ≠ b := fun e => hk (by rw [e, ← hcu, hb])
    rw [hm, Memory.wordAt_setWord, if_neg hab, hau]

/-- A step leaves every defined word defined (R148). -/
theorem step_wordAt_isSome {s t : State} {a : Word} (h : step s = .next t)
    (ha : (Memory.wordAt s.mem a).isSome = true) : (Memory.wordAt t.mem a).isSome = true := by
  obtain ⟨-, hm | ⟨b, v, -, -, hm⟩⟩ := step_writesAtMost h
  · rwa [hm]
  · rw [hm, Memory.wordAt_setWord]
    split
    · rfl
    · exact ha

/-- Settles O51: each step of the run leaves the word defined. -/
theorem definedWordsStayDefined : Obligations.DefinedWordsStayDefined := by
  intro s t a h ha
  exact h.keeps (P := fun u => (Memory.wordAt u.mem a).isSome = true) (fun _ _ => step_wordAt_isSome) ha

/-- Settles O47: nothing is loaded at reset, and the default MEM_MAP is empty. -/
theorem resetMeetsTheInvariant : Obligations.ResetMeetsTheInvariant :=
  ⟨Memory.reset_wf, by decide⟩

/-- Settles O46: the first access of a cycle is the read at the pc. -/
theorem launchStartsAtResetPc : Obligations.LaunchStartsAtResetPc := by
  refine ⟨⟨rfl, rfl, rfl⟩, rfl, ?_⟩
  rintro cfg image s ⟨-, hpc, -⟩ hh
  rw [← hpc, State.accesses, hh]
  cases s.fetch <;> simp [State.fetchAccesses]

end Sys2Proof.Machine
end

section
/-! PROOFS. Which accesses a cycle makes, and how they end the step (60_exceptions.md section 3, decisions D24, D30): a
step goes on exactly when its accesses can. -/

namespace Sys2Proof.Machine

/-! ### How many accesses -/

/-- The accesses of a list: `n` reads at most, and one write at most. -/
def ReadsAtMost (n : Nat) (accs : List Access) : Prop :=
  accs.countP Access.isRead ≤ n ∧ accs.length ≤ accs.countP Access.isRead + 1

/-- The data accesses of an instruction are two reads at most, or one and a write (R39). -/
theorem dataAccesses_readsAtMost (s : State) (i : Instr) : ReadsAtMost 2 (s.dataAccesses i) := by
  cases i
  case ldn dst disp src1 src2 | addn dst disp src1 src2 | subn dst disp src1 src2 | andn dst disp src1 src2 |
      orn dst disp src1 src2 =>
    cases h : s.memRead (s.effAddr disp src1 src2) <;>
      simp [ReadsAtMost, State.dataAccesses, State.operandAccesses, State.afterPointer, h, List.countP_cons,
        Access.isRead]
  case sdn disp dst1 src =>
    cases h : s.memRead (s.storeAddr disp dst1) <;>
      simp [ReadsAtMost, State.dataAccesses, State.afterPointer, h, List.countP_cons, Access.isRead]
  all_goals simp [ReadsAtMost, State.dataAccesses, State.operandAccesses, Access.isRead]

/-- The fetch makes one or two accesses, and each is a read (R39, R55). -/
theorem State.fetchAccesses_reads (s : State) :
    1 ≤ s.fetchAccesses.length ∧ s.fetchAccesses.length ≤ 2 ∧
      s.fetchAccesses.countP Access.isRead = s.fetchAccesses.length := by
  unfold State.fetchAccesses
  split
  · simp [Access.isRead]
  · split
    · simp [Access.isRead]
    · split <;> simp [List.countP_cons, Access.isRead]

/-- Settles O40: one or two reads of the fetch, and the data accesses. -/
theorem oneToFourReadsAtMostOneWrite : Obligations.OneToFourReadsAtMostOneWrite := by
  intro s hh
  obtain ⟨hone, htwo, hreads⟩ := s.fetchAccesses_reads
  rw [State.accesses, hh]
  cases hf : s.fetch with
  | error stop =>
    simp only [Bool.false_eq_true, if_false]
    omega
  | ok p =>
    obtain ⟨i, u⟩ := p
    obtain ⟨hdata, hwrite⟩ := dataAccesses_readsAtMost u i
    simp only [Bool.false_eq_true, if_false, List.countP_append, List.length_append]
    omega

/-! ### How the accesses end the step -/

/-- How a read or a fetch stops, if it does. -/
def stopOf {α : Type} : Except Stop α → Option Stop
  | .ok _ => none
  | .error stop => some stop

/-- How an outcome stands to the first access that cannot go on: it is that access's stop, or a next state where
there is no such access. -/
def EndsAs (r : Result) : Option Stop → Prop
  | none => ∃ t, r = .next t
  | some stop => r = stop.result

theorem Access.stop_read (s : State) (a : Word) : Access.stop s (.read a) = stopOf (s.memRead a) := by
  simp only [Access.stop]
  cases s.memRead a <;> rfl

theorem Access.stop_write (s : State) (a v : Word) : Access.stop s (.write a v) = stopOf (s.memWrite a v) := by
  simp only [Access.stop, State.memWrite]
  cases mapStop s.cfg a .write <;> rfl

/-- Whether an access can go on depends on memory and MEM_MAP only, and on no access before it. -/
theorem Access.stop_congr {s t : State} (hm : t.mem = s.mem) (hc : t.cfg = s.cfg) (acc : Access) :
    Access.stop t acc = Access.stop s acc := by
  cases acc with
  | read a =>
    have herr (stop : Stop) : t.memRead a = .error stop ↔ s.memRead a = .error stop := by
      rw [State.memRead_error, State.memRead_error, hm, hc]
    rw [Access.stop_read, Access.stop_read]
    cases hs : s.memRead a with
    | error stop => rw [(herr stop).2 hs]
    | ok v =>
      cases ht : t.memRead a with
      | error stop => simp [(herr stop).1 ht] at hs
      | ok w => rfl
  | write a v => simp only [Access.stop, hc]

theorem State.withRead_endsAs (s : State) (a : Word) {k : Word → State → Result} {accs : List Access}
    (hk : ∀ v, s.memRead a = .ok v → EndsAs (k v (s.afterRead a)) (accs.findSome? (Access.stop s))) :
    EndsAs (s.withRead a k) ((Access.read a :: accs).findSome? (Access.stop s)) := by
  rw [List.findSome?_cons, Access.stop_read]
  cases h : s.memRead a with
  | ok v => rw [State.withRead_ok h]; exact hk v h
  | error stop => exact State.withRead_error h k

theorem storeAt_endsAs (a : Word) (src : Reg) (s : State) :
    EndsAs (storeAt a src s) ([Access.write a (s.reg src)].findSome? (Access.stop s)) := by
  rw [List.findSome?_cons, Access.stop_write]
  cases h : s.memWrite a (s.reg src) with
  | ok u => exact ⟨_, storeAt_next.2 ⟨u, h, rfl⟩⟩
  | error stop => exact State.withWrite_error h _

/-- Going on with an operand ends as its reads do, when what follows always goes on (R53). -/
theorem State.withOperand_endsAs (s : State) (o : Operand) {k : Word → State → Result}
    (hk : ∀ v u, ∃ t, k v u = .next t) :
    EndsAs (s.withOperand o k) ((s.operandAccesses o).findSome? (Access.stop s)) := by
  cases o with
  | immediate imm => exact hk _ _
  | register src1 => exact hk _ _
  | indexed disp src1 src2 => exact s.withRead_endsAs _ fun v _ => hk _ _
  | indirect disp src1 src2 =>
    refine s.withRead_endsAs (s.effAddr disp src1 src2) (k := fun ptr t => t.withRead ptr k)
      (accs := s.afterPointer (s.effAddr disp src1 src2) .read) fun ptr hptr => ?_
    have hend := (s.afterRead (s.effAddr disp src1 src2)).withRead_endsAs ptr (k := k) (accs := []) fun v _ => hk _ _
    rw [State.afterPointer_ok hptr]
    simpa [Access.stop_congr (State.afterRead_mem s _) (State.afterRead_cfg s _)] using hend

/-! ### The data accesses of each shape of instruction -/

theorem dataAccesses_of_loadForm {i : Instr} {dst : Reg} {o : Operand} (h : loadForm i = some (dst, o)) (s : State) :
    s.dataAccesses i = s.operandAccesses o := by
  cases i <;> cases h <;> rfl

theorem dataAccesses_of_aluForm {i : Instr} {op : AluOp} {dst : Reg} {o : Operand}
    (h : aluForm i = some (op, dst, o)) (s : State) : s.dataAccesses i = s.operandAccesses o := by
  cases i <;> cases h <;> rfl

theorem dataAccesses_of_jumpForm {i : Instr} {s : State} {taken : Bool} {target : Word}
    (h : jumpForm s i = some (taken, target)) (u : State) : u.dataAccesses i = [] := by
  cases i <;> cases h <;> rfl

/-- An instruction ends as its data accesses do. -/
theorem exec_endsAs (i : Instr) (s : State) : EndsAs (exec i s) ((s.dataAccesses i).findSome? (Access.stop s)) := by
  obtain ⟨dst, o, hf⟩ | ⟨disp, dst1, src, rfl⟩ | ⟨disp, dst1, src, rfl⟩ | ⟨op, dst, o, hf⟩ | ⟨reg, rfl⟩ |
    ⟨taken, target, hf⟩ | ⟨lnk, disp, rfl⟩ | ⟨lnk, rfl⟩ := instr_shape s i
  · rw [exec_of_loadForm hf, dataAccesses_of_loadForm hf]
    exact s.withOperand_endsAs o fun v u => ⟨_, rfl⟩
  · exact storeAt_endsAs _ src s
  · refine s.withRead_endsAs _ (accs := s.afterPointer _ _) fun ptr hptr => ?_
    have hend := storeAt_endsAs ptr src (s.afterRead (s.storeAddr disp dst1))
    rw [State.afterPointer_ok hptr]
    simpa [Access.stop_congr (State.afterRead_mem s _) (State.afterRead_cfg s _)] using hend
  · rw [dataAccesses_of_aluForm hf]
    obtain he | ⟨-, imm, rfl, he⟩ := exec_of_aluForm hf s
    · rw [he]
      exact s.withOperand_endsAs o fun v u => ⟨_, rfl⟩
    · cases hf
      exact ⟨_, he⟩
  · exact ⟨_, rfl⟩
  · rw [exec_of_jumpForm hf, dataAccesses_of_jumpForm hf]
    exact ⟨_, rfl⟩
  · exact ⟨_, rfl⟩
  · exact s.withRead_endsAs (s.reg lnk) (k := fun target t => .next (t.setPc target)) (accs := []) fun _ _ => ⟨_, rfl⟩

/-! ### The accesses of the whole cycle -/

/-- The first word is one the decoder accepts, or cannot be read. -/
def State.Decodable (s : State) : Prop :=
  ∀ iw, s.memRead s.pc = .ok iw → ∃ row, decodeFirst s.cfg iw = .ok row

/-- A fetch of a word that the decoder accepts stops as its reads do. -/
theorem State.fetchAccesses_stop {s : State} (h : s.Decodable) :
    s.fetchAccesses.findSome? (Access.stop s) = stopOf s.fetch := by
  rw [State.fetchAccesses, List.findSome?_cons, Access.stop_read]
  cases hiw : s.memRead s.pc with
  | error stop => simp [State.fetch, hiw, stopOf]
  | ok iw =>
    obtain ⟨row, hrow⟩ := h iw hiw
    obtain hw | hw := opTable_words (findRow_some (decodeFirst_ok.1 hrow).1).1
    · simp [State.fetch_oneWord hiw hrow hw, hrow, hw, stopOf]
    · have hsecond : Access.stop s (.read (s.pc + 1#16)) = stopOf ((s.afterRead s.pc).memRead (s.pc + 1#16)) := by
        rw [← Access.stop_read, Access.stop_congr (State.afterRead_mem s _) (State.afterRead_cfg s _)]
      cases hw2 : (s.afterRead s.pc).memRead (s.pc + 1#16) with
      | ok w2 => simp [State.fetch_twoWords hiw hrow hw hw2, hrow, hw, hsecond, hw2, stopOf]
      | error stop => simp [State.fetch, hiw, hrow, hw, hsecond, hw2, stopOf]

/-- A step ends as the accesses of its cycle do. -/
theorem step_endsAs {s : State} (hh : s.halted = false) (h : s.Decodable) :
    EndsAs (step s) (s.accesses.findSome? (Access.stop s)) := by
  have hstop := State.fetchAccesses_stop h
  cases hf : s.fetch with
  | error stop =>
    rw [hf] at hstop
    simp only [State.accesses, hh, hf, Bool.false_eq_true, if_false, hstop]
    exact step_of_fetch_error hh hf
  | ok p =>
    obtain ⟨i, u⟩ := p
    have hend := exec_endsAs i u.nextWord
    rw [hf] at hstop
    simp only [State.accesses, hh, hf, Bool.false_eq_true, if_false, List.findSome?_append, hstop, stopOf,
      Option.none_or, step_of_fetch hh hf]
    rw [State.nextWord_dataAccesses] at hend
    have hsame : Access.stop u.nextWord = Access.stop s :=
      funext (Access.stop_congr (State.fetch_mem (u := u) hf) (State.fetch_cfg (u := u) hf))
    rwa [hsame] at hend

/-- Settles O41: both clauses are what it is for a step to end as its accesses do. -/
theorem stepStopsAtItsFirstFailingAccess : Obligations.StepStopsAtItsFirstFailingAccess := by
  intro s hh hdec
  have hend := step_endsAs hh hdec
  exact ⟨fun stop hs => by rwa [hs] at hend, fun hs => by rwa [hs] at hend⟩

/-- Where every word is defined and MEM_MAP has nothing but read/write memory and devices, every access can go on. -/
theorem Access.stop_eq_none {s : State} (hdef : s.AllDefined)
    (hmap : ∀ a, regionKind s.cfg a = .readWrite ∨ regionKind s.cfg a = .device) (acc : Access) :
    Access.stop s acc = none := by
  have hstop (a : Word) (kind : AccessKind) : mapStop s.cfg a kind = none := by
    obtain h | h := hmap a <;> simp [mapStop, h]
  cases acc with
  | write a v => exact hstop a .write
  | read a =>
    rw [Access.stop_read]
    cases hr : s.memRead a with
    | ok v => rfl
    | error stop =>
      obtain ⟨-, h | ⟨-, h, -⟩⟩ := State.memRead_error.1 hr
      · simp [hstop] at h
      · simpa [h] using hdef a

/-- Settles O49: every access of the cycle can go on, and a step leaves every defined word defined. -/
theorem definedMachineNeverStops : Obligations.DefinedMachineNeverStops := by
  intro s hdef hmap hdec
  obtain ⟨t, ht⟩ : ∃ t, step s = .next t := by
    cases hh : s.halted with
    | true => exact ⟨s, step_halted hh⟩
    | false =>
      have hnone : s.accesses.findSome? (Access.stop s) = none :=
        List.findSome?_eq_none_iff.2 fun acc _ => Access.stop_eq_none hdef hmap acc
      exact (stepStopsAtItsFirstFailingAccess s hh hdec).2 hnone
  exact ⟨t, ht, fun a => step_wordAt_isSome ht (hdef a)⟩

end Sys2Proof.Machine
end

section
/-! PROOFS. What platform devices see (20_memory.md section 2, R36; decision D24): the accesses of the cycle that are
made at them, in order. -/

namespace Sys2Proof.Machine

theorem DevicesSee.nextWord {s t : State} {accs : List Access} (h : DevicesSee s t accs) :
    DevicesSee s t.nextWord accs :=
  h

/-- What devices have seen after an instruction: its data accesses (R36, R39). -/
theorem exec_devicesSee {i : Instr} {s t : State} (h : exec i s = .next t) : DevicesSee s t (s.dataAccesses i) := by
  obtain ⟨dst, o, v, u, hf, hu, rfl⟩ | ⟨disp, dst1, src, u, rfl, hu, rfl⟩ | ⟨disp, dst1, src, ptr, u, rfl, hp, hu, rfl⟩ |
    ⟨op, dst, o, v, u, a, b, hf, hu, rfl⟩ | ⟨reg, f, rfl, rfl⟩ | ⟨taken, target, hf, rfl⟩ | ⟨lnk, disp, rfl, rfl⟩ |
    ⟨lnk, target, rfl, -, rfl⟩ := exec_next h
  · rw [dataAccesses_of_loadForm hf, DevicesSee, State.pastOperand_deviceSeen, State.setReg_deviceSeen]
    exact readOperand_devicesSee hu
  · exact (State.memWrite_devicesSee hu).nextWord
  · rw [State.dataAccesses, State.afterPointer_ok hp]
    exact (s.afterRead_devicesSee _).trans (State.afterRead_cfg s _) (State.memWrite_devicesSee hu).nextWord
  · rw [dataAccesses_of_aluForm hf, DevicesSee, State.pastOperand_deviceSeen, State.writeAlu_deviceSeen]
    exact readOperand_devicesSee hu
  · exact DevicesSee.refl s
  · rw [dataAccesses_of_jumpForm hf]
    exact DevicesSee.refl s
  · exact DevicesSee.refl s
  · exact s.afterRead_devicesSee _

/-- What devices have seen after a fetch: the reads of the instruction's words. -/
theorem State.fetch_devicesSee {s u : State} {i : Instr} (h : s.fetch = .ok (i, u)) :
    DevicesSee s u (wordReads s.pc i) := by
  rw [← State.fetchAccesses_of_fetch h]
  obtain ⟨iw, row, hiw, hrow, ⟨hw, -, rfl⟩ | ⟨hw, w2, -, -, rfl⟩⟩ := State.fetch_ok h
  · simp only [State.fetchAccesses, hiw, hrow, if_pos hw]
    exact s.afterRead_devicesSee s.pc
  · simp only [State.fetchAccesses, hiw, hrow, if_neg hw]
    exact (s.afterRead_devicesSee s.pc).trans (State.afterRead_cfg s _) (State.afterRead_devicesSee _ _)

/-- Settles O53: the fetch shows its reads to devices, and then the instruction its data accesses. -/
theorem devicesSeeTheAccessesInOrder : Obligations.DevicesSeeTheAccessesInOrder := by
  refine ⟨fun i s t => exec_devicesSee, fun s t h => ?_⟩
  obtain ⟨hh, rfl⟩ | ⟨hh, i, u, hf, he⟩ := step_next.1 h
  · simp only [State.accesses, hh, if_true]
    exact DevicesSee.refl t
  · have hdata := exec_devicesSee he
    rw [State.nextWord_dataAccesses] at hdata
    rw [State.accesses_of_fetch hh hf]
    exact (State.fetch_devicesSee hf).trans (State.fetch_cfg hf) hdata

/-! ### An untaken jump -/

/-- A jump depends on the flags of a state only. -/
theorem jumpForm_congr {s t : State} (h : t.flags = s.flags) (i : Instr) : jumpForm t i = jumpForm s i := by
  simp only [State.flags, Flags.mk.injEq] at h
  obtain ⟨hz, hc, hm⟩ := h
  cases i <;> simp [jumpForm, hz, hc, hm]

/-- A jump that is not taken, with its address word at a device: the step reads that word there and goes on past it (R36,
R120). -/
theorem step_untakenJump {s : State} {iw value : Word} {op : Op} (hh : s.halted = false)
    (hc : s.cfg.unusedFields = .ignore) (hiw : s.memRead s.pc = .ok iw) (hd : onDevice s.cfg (s.pc + 1#16) = true)
    (hm : ⟨op, value, 0xF800#16, 2⟩ ∈ opTable) (hv : iw &&& 0xF800#16 = value)
    (huntaken : ∀ target, jumpForm s (assemble s.cfg op iw target) = some (false, target)) :
    ∃ t, step s = .next t ∧ JumpEffect s t (s.pc + 1#16 + 1#16) ∧ DevicesSee s t [.read s.pc, .read (s.pc + 1#16)] := by
  have hw2 := State.memRead_device (s := s.afterRead s.pc) (a := s.pc + 1#16) (by rwa [State.afterRead_cfg])
  have hfetch := State.fetch_twoWords hiw (decodeFirst_of_ignore hc hm hv) rfl hw2
  refine ⟨(((s.afterRead s.pc).afterRead (s.pc + 1#16)).nextWord).nextWord, ?_, ?_, ?_⟩
  · rw [step_of_fetch hh hfetch, exec_of_jumpForm ((jumpForm_congr (by simp) _).trans (huntaken _))]
    rfl
  · exact ⟨by simp, fun r => by simp, ⟨by simp, by simp, by simp⟩, fun c => by simp, by simp [ParamsKept]⟩
  · exact (s.afterRead_devicesSee s.pc).trans (State.afterRead_cfg s _) (State.afterRead_devicesSee _ _)

/-- Settles O54: each of the six words selects its jump, which its flag leaves untaken. -/
theorem untakenJumpReadsItsAddressWordAtADevice : Obligations.UntakenJumpReadsItsAddressWordAtADevice := by
  intro s iw hh hc hiw hd hjump
  obtain ⟨hv, hflag⟩ | ⟨hv, hflag⟩ | ⟨hv, hflag⟩ | ⟨hv, hflag⟩ | ⟨hv, hflag⟩ | ⟨hv, hflag⟩ := hjump
  · exact step_untakenJump (op := .jz) hh hc hiw hd (by decide) hv fun _ => by simp [assemble, jumpForm, hflag]
  · exact step_untakenJump (op := .jnz) hh hc hiw hd (by decide) hv fun _ => by simp [assemble, jumpForm, hflag]
  · exact step_untakenJump (op := .jc) hh hc hiw hd (by decide) hv fun _ => by simp [assemble, jumpForm, hflag]
  · exact step_untakenJump (op := .jnc) hh hc hiw hd (by decide) hv fun _ => by simp [assemble, jumpForm, hflag]
  · exact step_untakenJump (op := .jm) hh hc hiw hd (by decide) hv fun _ => by simp [assemble, jumpForm, hflag]
  · exact step_untakenJump (op := .jnm) hh hc hiw hd (by decide) hv fun _ => by simp [assemble, jumpForm, hflag]

end Sys2Proof.Machine
end

section
/-! PROOFS. Stores (40_load_store.md section 3): the first words that select them, what they replace (R75 to R77), and
that the next fetch sees it (decision D23). -/

namespace Sys2Proof.Machine

/-! ### What a store leaves -/

/-- A write that goes on replaces its word, or no word where a device takes it, and the store then steps past its second
word (R75, R36). -/
theorem storeEffect_of_memWrite {s u : State} {a v : Word} (h : s.memWrite a v = .ok u) :
    StoreEffect s u.nextWord a v (s.pc + 1#16) := by
  obtain ⟨-, rfl⟩ := State.memWrite_ok.1 h
  cases hd : onDevice s.cfg a with
  | true =>
    rw [StoreEffect, if_pos hd]
    exact ⟨fun c => rfl, rfl, fun r => rfl, ⟨rfl, rfl, rfl⟩, rfl⟩
  | false =>
    rw [StoreEffect, if_neg (by simp [hd])]
    exact ⟨wordStored_setWord s a v, rfl, fun r => rfl, ⟨rfl, rfl, rfl⟩, rfl⟩

/-- A store completes where its target is read/write memory or a device's. -/
theorem storeAt_effect {s : State} {a : Word} (src : Reg)
    (hk : regionKind s.cfg a = .readWrite ∨ regionKind s.cfg a = .device) :
    ∃ t, storeAt a src s = .next t ∧ StoreEffect s t a (s.reg src) (s.pc + 1#16) := by
  have hstop : mapStop s.cfg a .write = none := by obtain hk | hk := hk <;> simp [mapStop, hk]
  have hw := State.memWrite_ok (v := s.reg src).2 ⟨hstop, rfl⟩
  exact ⟨_, storeAt_next.2 ⟨_, hw, rfl⟩, storeEffect_of_memWrite hw⟩

/-- What a store changes of the state after a read it changes of the state before. -/
theorem storeEffect_afterRead {s t : State} {b a v pc' : Word} :
    StoreEffect (s.afterRead b) t a v pc' ↔ StoreEffect s t a v pc' := by
  simp [StoreEffect, MemKept, WordStored, RegsKept, FlagsKept, ParamsKept]

/-! ### The statements -/

/-- Settles O21: the fixed bits select the row, and `sdn` is a store at its pointer in the state after the pointer is
read. -/
theorem stores : Obligations.Stores := by
  refine ⟨fun cfg iw disp rest hc hfield => ?_, fun disp dst1 src s hk => storeAt_effect src hk,
    fun disp dst1 src s ptr hptr hk => ?_⟩
  · refine ⟨fun h => ?_, fun h => ?_⟩
    · rw [decode_twoWords disp rest
        (decodeFirst_of_ignore (row := ⟨.stx, 0x1080#16, 0xF8C0#16, 2⟩) hc (by decide) h) rfl]
      simp only [assemble, storeDataLo, hfield]
    · rw [decode_twoWords disp rest
        (decodeFirst_of_ignore (row := ⟨.sdn, 0x10C0#16, 0xF8C0#16, 2⟩) hc (by decide) h) rfl]
      simp only [assemble, storeDataLo, hfield]
  · obtain ⟨t, ht, heffect⟩ := storeAt_effect (s := s.afterRead (s.storeAddr disp dst1)) src
      (by rwa [State.afterRead_cfg])
    rw [storeEffect_afterRead, State.afterRead_reg, State.afterRead_pc] at heffect
    exact ⟨t, (State.withRead_ok hptr _).trans ht, heffect⟩

/-- A store to memory is read back by the next fetch, where the next pc is its target. -/
theorem memRead_pc_of_storeAt {s t : State} {a : Word} {src : Reg} (h : storeAt a src s = .next t) (ha : a = t.pc)
    (hd : onDevice s.cfg t.pc = false) : t.memRead t.pc = .ok (s.reg src) := by
  obtain ⟨u, hu, rfl⟩ := storeAt_next.1 h
  subst ha
  exact (memReadAfterMemWrite.2 s u _ _ hd hu).1

/-- Settles O45: what was stored at the next pc is what is read there. -/
theorem storeIsSeenByTheNextFetch : Obligations.StoreIsSeenByTheNextFetch := by
  refine ⟨fun disp dst1 src s t h ha hd => memRead_pc_of_storeAt h ha hd, fun disp dst1 src s t h hptr hd => ?_⟩
  have hstore : storeAt t.pc src (s.afterRead (s.storeAddr disp dst1)) = .next t :=
    (State.withRead_ok hptr fun ptr u => storeAt ptr src u).symm.trans h
  rw [← State.afterRead_reg s (s.storeAddr disp dst1) src]
  exact memRead_pc_of_storeAt hstore rfl (by rwa [State.afterRead_cfg])

end Sys2Proof.Machine
end

section
/-! PROOFS. Class 01 instruction by instruction (41_alu.md section 2), `cmp` (section 3), and the default flags in
integers (section 4). -/

namespace Sys2Proof.Machine

/-- A two-operand instruction whose operand has a value completes and leaves its result on that value (R90, R91). -/
theorem aluOperand_completes {s : State} {o : Operand} {b : Word} (op : AluOp) (dst : Reg) (hb : OperandIs s o b) :
    ∃ t, aluOperand op dst o s = .next t ∧
      AluEffect s t op dst (s.reg dst) b (aluResult op (s.reg dst) b) (s.pc + o.secondWords) := by
  obtain ⟨u, hu⟩ := operandIs_iff.1 hb
  exact ⟨_, aluOperand_next.2 ⟨b, u, hu, rfl⟩, aluEffect_of_readOperand op dst hu⟩

/-- `subi` with SUBI_REVERSED at the spec's reading is the shared two-operand instruction (D8). -/
theorem exec_subi {dst : Reg} {imm : Word} {s : State} (hr : s.cfg.subiReversed = false) :
    exec (.subi dst imm) s = aluOperand .sub dst (.immediate imm) s :=
  exec_of_aluForm_spec rfl hr

/-- `subi` with SUBI_REVERSED set subtracts the register from the immediate (D8, log 17). -/
theorem exec_subi_reversed {dst : Reg} {imm : Word} {s : State} (hr : s.cfg.subiReversed = true) :
    exec (.subi dst imm) s = .next (s.writeAlu .sub dst imm (s.reg dst)).nextWord := by
  simp [exec, execSubi, hr]

/-- Settles O23: an immediate operand always has its value; the reversed `subi` is written out. -/
theorem aluImmediateForms : Obligations.AluImmediateForms := by
  intro dst imm s
  have hb : OperandIs s (.immediate imm) imm := rfl
  refine ⟨aluOperand_completes .add dst hb, fun hr => ?_, fun hr => ?_, aluOperand_completes .and dst hb,
    aluOperand_completes .or dst hb⟩
  · rw [exec_subi hr]
    exact aluOperand_completes .sub dst hb
  · rw [exec_subi_reversed hr]
    exact ⟨_, rfl, ⟨by simp [aluResult], fun r hne => by simp [hne]⟩, ⟨rfl, rfl, rfl⟩, rfl, fun c => rfl, rfl⟩

/-- Settles O24: a register operand always has the register's value. -/
theorem aluRegisterForms : Obligations.AluRegisterForms := by
  intro dst src1 s
  have hb : OperandIs s (.register src1) (s.reg src1) := rfl
  have hpc : s.pc + (Operand.register src1).secondWords = s.pc := BitVec.add_zero s.pc
  exact ⟨hpc ▸ aluOperand_completes .add dst hb, hpc ▸ aluOperand_completes .sub dst hb,
    hpc ▸ aluOperand_completes .and dst hb, hpc ▸ aluOperand_completes .or dst hb⟩

/-- Settles O25: the word read at the effective address is the operand's value. -/
theorem aluIndexedForms : Obligations.AluIndexedForms := by
  intro dst disp src1 src2 s b hread
  have hb : OperandIs s (.indexed disp src1 src2) b := hread
  exact ⟨aluOperand_completes .add dst hb, aluOperand_completes .sub dst hb, aluOperand_completes .and dst hb,
    aluOperand_completes .or dst hb⟩

/-- Settles O26: the word read through the pointer is the operand's value. -/
theorem aluIndirectForms : Obligations.AluIndirectForms := by
  intro dst disp src1 src2 s ptr b hptr hread
  have hb : OperandIs s (.indirect disp src1 src2) b := ⟨ptr, hptr, hread⟩
  exact ⟨aluOperand_completes .add dst hb, aluOperand_completes .sub dst hb, aluOperand_completes .and dst hb,
    aluOperand_completes .or dst hb⟩

/-- Settles O29: `cmp` writes the flags, and the operand of the default CMP_RULE is 0. -/
theorem compareWritesOnlyFlags : Obligations.CompareWritesOnlyFlags := by
  intro reg s
  refine ⟨_, rfl, rfl, fun _ => rfl, fun _ => rfl, rfl, ⟨rfl, rfl, rfl⟩, fun hflag hcmp => ?_⟩
  simp [flagRule, hflag, cmpOperand, hcmp, defaultFlags, aluResult, borrow]

/-! ### The default flags in integers -/

/-- A carry makes up what the 16-bit sum leaves out (R5). -/
theorem carry_exact (a b : Word) : a.toNat + b.toNat = (a + b).toNat + 65536 * (carry a b).toNat := by
  have := a.isLt
  have := b.isLt
  rw [BitVec.toNat_add, carry]
  by_cases h : 65536 ≤ a.toNat + b.toNat
  · simp only [h, decide_true, Bool.toNat_true]
    omega
  · simp only [h, decide_false, Bool.toNat_false]
    omega

/-- A borrow makes up what the 16-bit difference leaves out (R5). -/
theorem borrow_exact (a b : Word) : a.toNat + 65536 * (borrow a b).toNat = b.toNat + (a - b).toNat := by
  have := a.isLt
  have := b.isLt
  rw [BitVec.toNat_sub, borrow]
  by_cases h : a.toNat < b.toNat
  · simp only [h, decide_true, Bool.toNat_true]
    omega
  · simp only [h, decide_false, Bool.toNat_false]
    omega

/-- Settles O28: carry and borrow are what the 16-bit results leave out of the exact ones. -/
theorem defaultFlagsAreExactArithmetic : Obligations.DefaultFlagsAreExactArithmetic := by
  intro cfg old op a b hflag
  simp only [flagRule, hflag]
  refine ⟨?_, ?_, ?_, ?_, ?_⟩
  · simp [defaultFlags, ← BitVec.toNat_inj]
  · exact (BitVec.msb_eq_true_iff_two_mul_ge (x := aluResult op a b)).trans (by omega)
  · rintro rfl
    exact carry_exact a b
  · rintro (rfl | rfl) <;> exact borrow_exact a b
  · rintro (rfl | rfl) <;> rfl

end Sys2Proof.Machine
end

section
/-! PROOFS. Class 11 (43_call_return.md): the first words of `jal` and `jr`, the link, and where each goes (R135,
R136). -/

namespace Sys2Proof.Machine

/-- Settles O32: the fixed bits select the row, and `jal` writes its link register and the pc. -/
theorem jumpAndLink : Obligations.JumpAndLink := by
  refine ⟨fun cfg iw disp rest hc h => ?_, fun lnk disp s => ?_⟩
  · exact decode_twoWords disp rest
      (decodeFirst_of_ignore (row := ⟨.jal, 0xE000#16, 0xE000#16, 2⟩) hc (by decide) h) rfl
  · exact ⟨_, rfl, ⟨by simp, fun r hr => by simp [hr]⟩, rfl, ⟨rfl, rfl, rfl⟩, fun c => rfl, rfl⟩

/-- Settles O33: the fixed bits select the row, and a `jr` whose read goes on sets the pc to the word read. -/
theorem returnGoesThroughMemory : Obligations.ReturnGoesThroughMemory := by
  refine ⟨fun cfg iw rest hc h => ?_, fun lnk s target hread => ?_⟩
  · exact decode_oneWord rest
      (decodeFirst_of_ignore (row := ⟨.jr, 0xC000#16, 0xE000#16, 1⟩) hc (by decide) h) rfl
  · refine ⟨_, execJr_next.2 ⟨target, hread, rfl⟩, rfl, fun r => ?_, ⟨?_, ?_, ?_⟩, fun c => ?_, ?_⟩ <;>
      simp [ParamsKept]

end Sys2Proof.Machine
end

section
/-! PROOFS. What every instruction leaves unchanged: the register table (10_state.md section 1), the flags (section 3) and
the length of an instruction (section 2). -/

namespace Sys2Proof.Machine

/-! ### What reading an operand keeps -/

theorem State.readOperand_reg {s u : State} {o : Operand} {v : Word} (h : s.readOperand o = .ok (v, u)) (q : Reg) :
    u.reg q = s.reg q := by
  rw [State.readOperand_state h]
  rfl

theorem State.readOperand_pc {s u : State} {o : Operand} {v : Word} (h : s.readOperand o = .ok (v, u)) :
    u.pc = s.pc := by
  rw [State.readOperand_state h]

theorem State.readOperand_flagsKept {s u : State} {o : Operand} {v : Word} (h : s.readOperand o = .ok (v, u)) :
    FlagsKept s u := by
  rw [State.readOperand_state h]
  exact ⟨rfl, rfl, rfl⟩

/-- A write to memory keeps the registers, the pc and the flags. -/
theorem State.memWrite_keeps {s u : State} {a v : Word} (h : s.memWrite a v = .ok u) :
    RegsKept s u ∧ u.pc = s.pc ∧ FlagsKept s u := by
  rw [State.memWrite_state h]
  exact ⟨fun _ => rfl, rfl, rfl, rfl, rfl⟩

/-! ### The tables by the shape of an instruction -/

theorem writtenReg_of_loadForm {i : Instr} {dst : Reg} {o : Operand} (h : loadForm i = some (dst, o)) :
    writtenReg i = some dst := by
  cases i <;> cases h <;> rfl

theorem writtenReg_of_aluForm {i : Instr} {op : AluOp} {dst : Reg} {o : Operand} (h : aluForm i = some (op, dst, o)) :
    writtenReg i = some dst := by
  cases i <;> cases h <;> rfl

theorem writtenReg_of_jumpForm {i : Instr} {s : State} {taken : Bool} {target : Word}
    (h : jumpForm s i = some (taken, target)) : writtenReg i = none := by
  cases i <;> cases h <;> rfl

theorem isClass01_of_loadForm {i : Instr} {dst : Reg} {o : Operand} (h : loadForm i = some (dst, o)) :
    isClass01 i = false := by
  cases i <;> cases h <;> rfl

theorem isClass01_of_aluForm {i : Instr} {op : AluOp} {dst : Reg} {o : Operand} (h : aluForm i = some (op, dst, o)) :
    isClass01 i = true := by
  cases i <;> cases h <;> rfl

theorem isClass01_of_jumpForm {i : Instr} {s : State} {taken : Bool} {target : Word}
    (h : jumpForm s i = some (taken, target)) : isClass01 i = false := by
  cases i <;> cases h <;> rfl

theorem isTransfer_of_jumpForm {i : Instr} {s : State} {taken : Bool} {target : Word}
    (h : jumpForm s i = some (taken, target)) : isTransfer i = true := by
  cases i <;> cases h <;> rfl

/-- The second words of an operand form are those of its instruction's encoding (R53, R55). -/
theorem secondWords_of_loadForm {i : Instr} {dst : Reg} {o : Operand} (cfg : Config) (h : loadForm i = some (dst, o)) :
    o.secondWords = BitVec.ofNat 16 ((encode cfg i).length - 1) := by
  cases i <;> cases h <;> rfl

theorem secondWords_of_aluForm {i : Instr} {op : AluOp} {dst : Reg} {o : Operand} (cfg : Config)
    (h : aluForm i = some (op, dst, o)) : o.secondWords = BitVec.ofNat 16 ((encode cfg i).length - 1) := by
  cases i <;> cases h <;> rfl

/-! ### The statements -/

/-- Settles O34: a load or class 01 instruction steps past its operand's second words, and a store past one. -/
theorem pcStepsOverTheInstructionsWords : Obligations.PcStepsOverTheInstructionsWords := by
  intro i s t hi h
  obtain ⟨dst, o, v, u, hf, hu, rfl⟩ | ⟨disp, dst1, src, u, rfl, hu, rfl⟩ | ⟨disp, dst1, src, ptr, u, rfl, hp, hu, rfl⟩ |
    ⟨op, dst, o, v, u, a, b, hf, hu, rfl⟩ | ⟨reg, f, rfl, rfl⟩ | ⟨taken, target, hf, rfl⟩ | ⟨lnk, disp, rfl, rfl⟩ |
    ⟨lnk, target, rfl, -, rfl⟩ := exec_next h
  · rw [State.pastOperand_pc, State.setReg_pc, State.readOperand_pc hu, secondWords_of_loadForm s.cfg hf]
  · rw [State.nextWord_pc, (State.memWrite_keeps hu).2.1]
    rfl
  · rw [State.nextWord_pc, (State.memWrite_keeps hu).2.1, State.afterRead_pc]
    rfl
  · rw [State.pastOperand_pc, State.writeAlu_pc, State.readOperand_pc hu, secondWords_of_aluForm s.cfg hf]
  · exact (BitVec.add_zero s.pc).symm
  · simp [isTransfer_of_jumpForm hf] at hi
  · simp [isTransfer] at hi
  · simp [isTransfer] at hi

/-- Settles O35: each shape of instruction writes the table's register at most. -/
theorem registerWritesFollowTheTable : Obligations.RegisterWritesFollowTheTable := by
  intro i s t r h hr
  obtain ⟨dst, o, v, u, hf, hu, rfl⟩ | ⟨disp, dst1, src, u, rfl, hu, rfl⟩ | ⟨disp, dst1, src, ptr, u, rfl, hp, hu, rfl⟩ |
    ⟨op, dst, o, v, u, a, b, hf, hu, rfl⟩ | ⟨reg, f, rfl, rfl⟩ | ⟨taken, target, hf, rfl⟩ | ⟨lnk, disp, rfl, rfl⟩ |
    ⟨lnk, target, rfl, -, rfl⟩ := exec_next h
  · have hne : r ≠ dst := fun e => hr (e ▸ writtenReg_of_loadForm hf)
    simp [hne, State.readOperand_reg hu]
  · exact (State.memWrite_keeps hu).1 r
  · exact ((State.memWrite_keeps hu).1 r).trans (State.afterRead_reg s _ r)
  · have hne : r ≠ dst := fun e => hr (e ▸ writtenReg_of_aluForm hf)
    simp [hne, State.readOperand_reg hu]
  · rfl
  · rfl
  · have hne : r ≠ lnk := fun e => hr (e ▸ rfl)
    simp [hne]
  · simp

/-- Settles O37: no shape of instruction outside class 01 writes a flag. -/
theorem onlyClass01WritesFlags : Obligations.OnlyClass01WritesFlags := by
  intro i s t hi h
  obtain ⟨dst, o, v, u, -, hu, rfl⟩ | ⟨disp, dst1, src, u, -, hu, rfl⟩ | ⟨disp, dst1, src, ptr, u, -, -, hu, rfl⟩ |
    ⟨op, dst, o, v, u, a, b, hf, -, -⟩ | ⟨reg, f, rfl, -⟩ | ⟨taken, target, -, rfl⟩ | ⟨lnk, disp, -, rfl⟩ |
    ⟨lnk, target, -, -, rfl⟩ := exec_next h
  · simpa [FlagsKept] using State.readOperand_flagsKept hu
  · exact (State.memWrite_keeps hu).2.2
  · simpa [FlagsKept] using (State.memWrite_keeps hu).2.2
  · simp [isClass01_of_aluForm hf] at hi
  · simp [isClass01] at hi
  · exact ⟨rfl, rfl, rfl⟩
  · exact ⟨rfl, rfl, rfl⟩
  · simp [FlagsKept]

end Sys2Proof.Machine
end

section
/-! PROOFS. What every instruction and every step reads: two states that differ only where nothing is read (a register,
the flags, memory) end alike (R11, R17, R39). -/

namespace Sys2Proof.Machine

/-! ### Two runs of one operation

`R` relates the outcomes from a state `s` and from a changed state `g s`. -/

/-- Two reads that give the same end related when what follows them does. -/
theorem State.withRead_related {R : Result → Result → Prop} (hstop : ∀ stop : Stop, R stop.result stop.result)
    {s t : State} {a : Word} {k k' : Word → State → Result} (hread : t.memRead a = s.memRead a)
    (hk : ∀ v, s.memRead a = .ok v → R (k v (s.afterRead a)) (k' v (t.afterRead a))) :
    R (s.withRead a k) (t.withRead a k') := by
  cases h : s.memRead a with
  | ok v =>
    rw [State.withRead_ok h, State.withRead_ok (hread.trans h)]
    exact hk v h
  | error stop =>
    rw [State.withRead_error h, State.withRead_error (hread.trans h)]
    exact hstop stop

/-- Two stores of which MEM_MAP says the same end related when the states they leave are. -/
theorem storeAt_related {R : Result → Result → Prop} (hstop : ∀ stop : Stop, R stop.result stop.result) {s t : State}
    {a : Word} {src : Reg} (hcfg : t.cfg = s.cfg)
    (hdev : R (.next (s.deviceSees (.write a (s.reg src))).nextWord)
      (.next (t.deviceSees (.write a (t.reg src))).nextWord))
    (hmem : R (.next (s.setMem (Memory.setWord s.mem a (s.reg src))).nextWord)
      (.next (t.setMem (Memory.setWord t.mem a (t.reg src))).nextWord)) :
    R (storeAt a src s) (storeAt a src t) := by
  cases h : mapStop s.cfg a .write with
  | some stop =>
    rw [storeAt, storeAt, State.withWrite_error (State.memWrite_error.2 h),
      State.withWrite_error (State.memWrite_error.2 (hcfg ▸ h))]
    exact hstop stop
  | none =>
    rw [storeAt, storeAt, State.withWrite_ok (State.memWrite_ok.2 ⟨h, rfl⟩),
      State.withWrite_ok (State.memWrite_ok.2 ⟨hcfg ▸ h, rfl⟩), hcfg]
    cases onDevice s.cfg a with
    | true => exact hdev
    | false => exact hmem

/-- The registers an operand reads (R11). -/
def Operand.regs : Operand → List Reg
  | .immediate _ => []
  | .register src1 => [src1]
  | .indexed _ src1 src2 => [src1, src2]
  | .indirect _ src1 src2 => [src1, src2]

/-- A change `g` of the state that no access of an operand can tell. -/
structure Unread (g : State → State) (s : State) (o : Operand) : Prop where
  reg : ∀ q ∈ o.regs, (g s).reg q = s.reg q
  memRead : ∀ u a, u.mem = s.mem → Access.read a ∈ s.operandAccesses o → (g u).memRead a = u.memRead a
  afterRead : ∀ u a, (g u).afterRead a = g (u.afterRead a)

/-- Two runs of an operand end related when what follows them does. -/
theorem State.withOperand_related {R : Result → Result → Prop} (hstop : ∀ stop : Stop, R stop.result stop.result)
    {g : State → State} {s : State} {o : Operand} (hg : Unread g s o) {k k' : Word → State → Result}
    (hk : ∀ b u, s.readOperand o = .ok (b, u) → R (k b u) (k' b (g u))) :
    R (s.withOperand o k) ((g s).withOperand o k') := by
  cases o with
  | immediate imm => exact hk imm s rfl
  | register src1 =>
    simp only [State.withOperand, hg.reg src1 (by simp [Operand.regs])]
    exact hk _ s rfl
  | indexed disp src1 src2 =>
    have haddr : (g s).effAddr disp src1 src2 = s.effAddr disp src1 src2 := by
      simp [State.effAddr, hg.reg src1 (by simp [Operand.regs]), hg.reg src2 (by simp [Operand.regs])]
    simp only [State.withOperand, haddr]
    refine State.withRead_related hstop (hg.memRead s _ rfl (by simp [State.operandAccesses])) fun v hv => ?_
    rw [hg.afterRead]
    exact hk v _ (by simp [State.readOperand, hv])
  | indirect disp src1 src2 =>
    have haddr : (g s).effAddr disp src1 src2 = s.effAddr disp src1 src2 := by
      simp [State.effAddr, hg.reg src1 (by simp [Operand.regs]), hg.reg src2 (by simp [Operand.regs])]
    simp only [State.withOperand, haddr]
    refine State.withRead_related hstop (hg.memRead s _ rfl (by simp [State.operandAccesses])) fun ptr hptr => ?_
    rw [hg.afterRead]
    refine State.withRead_related hstop (hg.memRead _ _ (State.afterRead_mem s _) ?_) fun v hv => ?_
    · simp [State.operandAccesses, State.afterPointer_ok hptr]
    · rw [hg.afterRead]
      exact hk v _ (by simp [State.readOperand, hptr, hv])

/-- A two-operand instruction of class 01 computes from its first operand and its second in an order that the parameters
fix (R90, D8). -/
theorem exec_of_aluForm_ordered {i : Instr} {op : AluOp} {dst : Reg} {o : Operand} (h : aluForm i = some (op, dst, o))
    (cfg : Config) :
    ∃ order : Word → Word → Word × Word, ∀ s : State, s.cfg = cfg →
      exec i s = s.withOperand o fun b u =>
        .next ((u.writeAlu op dst (order (u.reg dst) b).1 (order (u.reg dst) b).2).pastOperand o) := by
  cases hr : cfg.subiReversed with
  | false => exact ⟨fun a b => (a, b), fun s hs => exec_of_aluForm_spec h (hs ▸ hr)⟩
  | true =>
    cases i <;> cases h
    case subi.refl imm => exact ⟨fun a b => (b, a), fun s hs => exec_subi_reversed (hs ▸ hr)⟩
    all_goals exact ⟨fun a b => (a, b), fun s _ => rfl⟩

/-! ### A register that is not read -/

theorem State.setReg_setReg (s : State) (r : Reg) (v w : Word) : (s.setReg r v).setReg r w = s.setReg r w := by
  simp [State.setReg]

theorem State.setReg_comm (s : State) {r q : Reg} (v w : Word) (h : r ≠ q) :
    (s.setReg r v).setReg q w = (s.setReg q w).setReg r v := by
  have h' : r.val ≠ q.val := fun e => h (Fin.ext e)
  simp [State.setReg, Vector.set_comm v w h']

theorem State.setReg_pastOperand (s : State) (r : Reg) (v : Word) (o : Operand) :
    (s.setReg r v).pastOperand o = (s.pastOperand o).setReg r v := by
  cases o <;> rfl

theorem State.setReg_writeAlu (s : State) (op : AluOp) {r dst : Reg} (v a b : Word) (h : r ≠ dst) :
    (s.setReg r v).writeAlu op dst a b = (s.writeAlu op dst a b).setReg r v := by
  rw [State.writeAlu, State.setReg_comm s v _ h]
  rfl

/-- The outcome `y` is the outcome `x` with `v` in register `r`, or `x` itself where `written`, the register the
instruction writes, is `r`. -/
def SameButReg (written : Option Reg) (r : Reg) (v : Word) (x y : Result) : Prop :=
  y = if written = some r then x else withReg r v x

theorem sameButReg_stop (written : Option Reg) (r : Reg) (v : Word) (stop : Stop) :
    SameButReg written r v stop.result stop.result := by
  cases stop <;> simp [SameButReg, Stop.result, withReg]

/-- A register other than the one written keeps its value `v`. -/
theorem sameButReg_of_ne {written : Option Reg} {r : Reg} (v : Word) {t u : State} (h : written ≠ some r)
    (hu : u = t.setReg r v) : SameButReg written r v (.next t) (.next u) := by
  rw [SameButReg, if_neg h, hu]
  rfl

/-- The register written loses the value it had before. -/
theorem sameButReg_setReg (s : State) (r dst : Reg) (v w : Word) :
    SameButReg (some dst) r v (.next (s.setReg dst w)) (.next ((s.setReg r v).setReg dst w)) := by
  by_cases h : dst = r
  · simp [SameButReg, h, State.setReg_setReg]
  · exact sameButReg_of_ne v (by simpa using h) (State.setReg_comm s v w (Ne.symm h))

theorem sameButReg_pastOperand {written : Option Reg} {r : Reg} {v : Word} {t u : State} (o : Operand)
    (h : SameButReg written r v (.next t) (.next u)) :
    SameButReg written r v (.next (t.pastOperand o)) (.next (u.pastOperand o)) := by
  unfold SameButReg at h ⊢
  split at h <;> cases h
  · simp [*]
  · simp [*, withReg, State.setReg_pastOperand]

theorem unread_setReg {r : Reg} (v : Word) (s : State) {o : Operand} (h : r ∉ o.regs) :
    Unread (fun u => u.setReg r v) s o where
  reg q hq := by
    have hne : q ≠ r := fun e => h (e ▸ hq)
    simp [hne]
  memRead _ _ _ _ := rfl
  afterRead u a := State.setReg_afterRead u r v a

theorem readRegs_of_loadForm {i : Instr} {dst : Reg} {o : Operand} (h : loadForm i = some (dst, o)) :
    readRegs i = o.regs := by
  cases i <;> cases h <;> rfl

theorem readRegs_of_aluForm {i : Instr} {op : AluOp} {dst : Reg} {o : Operand} (h : aluForm i = some (op, dst, o)) :
    readRegs i = dst :: o.regs := by
  cases i <;> cases h <;> rfl

theorem storeAt_sameButReg (a : Word) {src r : Reg} (v : Word) (s : State) (h : src ≠ r) :
    SameButReg none r v (storeAt a src s) (storeAt a src (s.setReg r v)) := by
  refine storeAt_related (sameButReg_stop none r v) rfl ?_ ?_ <;>
    exact sameButReg_of_ne v (by simp) (by rw [State.setReg_reg, if_neg h]; rfl)

/-- Another value in a register that an instruction does not read changes that register only. -/
theorem exec_sameButReg (i : Instr) (s : State) (r : Reg) (v : Word) (hr : r ∉ readRegs i)
    (hcmp : ∀ reg, i = .cmp reg → s.cfg.cmpRule = .zero) :
    SameButReg (writtenReg i) r v (exec i s) (exec i (s.setReg r v)) := by
  have hstop := sameButReg_stop (writtenReg i) r v
  obtain ⟨dst, o, hf⟩ | ⟨disp, dst1, src, rfl⟩ | ⟨disp, dst1, src, rfl⟩ | ⟨op, dst, o, hf⟩ | ⟨reg, rfl⟩ |
    ⟨taken, target, hf⟩ | ⟨lnk, disp, rfl⟩ | ⟨lnk, rfl⟩ := instr_shape s i
  · rw [readRegs_of_loadForm hf] at hr
    rw [writtenReg_of_loadForm hf] at hstop ⊢
    rw [exec_of_loadForm hf, exec_of_loadForm hf]
    exact State.withOperand_related hstop (unread_setReg v s hr) fun b u _ =>
      sameButReg_pastOperand o (sameButReg_setReg u r dst v b)
  · obtain ⟨hdst, hsrc⟩ : dst1 ≠ r ∧ src ≠ r := by simpa [readRegs, eq_comm] using hr
    have haddr : (s.setReg r v).storeAddr disp dst1 = s.storeAddr disp dst1 := by simp [State.storeAddr, hdst]
    simp only [exec, execStx, haddr]
    exact storeAt_sameButReg _ v s hsrc
  · obtain ⟨hdst, hsrc⟩ : dst1 ≠ r ∧ src ≠ r := by simpa [readRegs, eq_comm] using hr
    have haddr : (s.setReg r v).storeAddr disp dst1 = s.storeAddr disp dst1 := by simp [State.storeAddr, hdst]
    simp only [exec, execSdn, haddr]
    refine State.withRead_related hstop rfl fun ptr _ => ?_
    rw [State.setReg_afterRead]
    exact storeAt_sameButReg ptr v _ hsrc
  · rw [readRegs_of_aluForm hf, List.mem_cons, not_or] at hr
    obtain ⟨hne, hr⟩ := hr
    obtain ⟨order, he⟩ := exec_of_aluForm_ordered hf s.cfg
    rw [he s rfl, he (s.setReg r v) rfl]
    refine State.withOperand_related hstop (unread_setReg v s hr) fun b u _ => sameButReg_pastOperand o ?_
    rw [writtenReg_of_aluForm hf, State.setReg_reg, if_neg (Ne.symm hne)]
    exact sameButReg_of_ne v (by simpa using Ne.symm hne) (State.setReg_writeAlu u op v _ _ hne)
  · have hne : reg ≠ r := by simpa [readRegs, eq_comm] using hr
    refine sameButReg_of_ne v (by simp [writtenReg]) ?_
    simp only [State.setReg_reg, if_neg hne, cmpOperand, State.setReg_cfg, hcmp reg rfl]
    rfl
  · rw [exec_of_jumpForm hf, exec_of_jumpForm (s := s.setReg r v) ((jumpForm_congr rfl i).trans hf),
      writtenReg_of_jumpForm hf]
    refine sameButReg_of_ne v (by simp) ?_
    cases taken <;> rfl
  · exact sameButReg_setReg (s.setPc (s.pc + disp)) r lnk v (s.pc + 1#16)
  · have hne : lnk ≠ r := by simpa [readRegs, eq_comm] using hr
    simp only [exec, execJr, State.setReg_reg, if_neg hne]
    refine State.withRead_related hstop rfl fun target _ => ?_
    rw [State.setReg_afterRead]
    exact sameButReg_of_ne v (by simp [writtenReg]) rfl

/-- Settles O36: an instruction ends alike but for the register that it does not read. -/
theorem registerReadsFollowTheTable : Obligations.RegisterReadsFollowTheTable := by
  intro i s r v hr hcmp
  exact exec_sameButReg i s r v hr hcmp

/-! ### Flags -/

theorem withNewFlags_stop (f : Flags) (stop : Stop) : stop.result = withNewFlags f stop.result := by
  cases stop <;> rfl

theorem sameButFlags_withNewFlags (f : Flags) (x : Result) : SameButFlags x (withNewFlags f x) := by
  cases x <;> simp [SameButFlags, withNewFlags]

theorem sameButFlags_stop (stop : Stop) : SameButFlags stop.result stop.result := by
  cases stop <;> rfl

theorem unread_setFlags (f : Flags) (s : State) (o : Operand) : Unread (fun u => u.setFlags f) s o where
  reg _ _ := rfl
  memRead _ _ _ _ := rfl
  afterRead u a := State.setFlags_afterRead u f a

/-- The flags a jump does not test do not decide it. -/
theorem jumpForm_setFlags {i : Instr} {s : State} {f : Flags} (h : sameTestedFlag i s (s.setFlags f)) :
    jumpForm (s.setFlags f) i = jumpForm s i := by
  cases i <;> simp_all [jumpForm, sameTestedFlag]

/-- The flags before an instruction are not asked for by a FLAG_RULE that is interpreted (R91, D13). -/
theorem flagRule_congr {cfg : Config} (old old' : Flags) (op : AluOp) (a b r : Word)
    (h : cfg.flagRule ≠ .uninterpreted) : flagRule cfg old op a b r = flagRule cfg old' op a b r := by
  unfold flagRule
  split
  · rfl
  · rfl
  · next hu => exact absurd hu h

/-- An instruction outside class 01 that does not test the flags that differ ends in a state with those flags. -/
theorem exec_setFlags_of_not_class01 {i : Instr} {s : State} {f : Flags} (hi : isClass01 i = false)
    (hflag : sameTestedFlag i s (s.setFlags f)) : exec i (s.setFlags f) = withNewFlags f (exec i s) := by
  have hstop := withNewFlags_stop f
  have hstore (a : Word) (src : Reg) (u : State) :
      storeAt a src (u.setFlags f) = withNewFlags f (storeAt a src u) :=
    storeAt_related (R := fun x y => y = withNewFlags f x) hstop rfl rfl rfl
  obtain ⟨dst, o, hf⟩ | ⟨disp, dst1, src, rfl⟩ | ⟨disp, dst1, src, rfl⟩ | ⟨op, dst, o, hf⟩ | ⟨reg, rfl⟩ |
    ⟨taken, target, hf⟩ | ⟨lnk, disp, rfl⟩ | ⟨lnk, rfl⟩ := instr_shape s i
  · rw [exec_of_loadForm hf, exec_of_loadForm hf]
    refine State.withOperand_related (R := fun x y => y = withNewFlags f x) hstop (unread_setFlags f s o)
      fun b u _ => ?_
    cases o <;> rfl
  · exact hstore _ src s
  · refine State.withRead_related (R := fun x y => y = withNewFlags f x) hstop rfl fun ptr _ => ?_
    rw [State.setFlags_afterRead]
    exact hstore ptr src _
  · simp [isClass01_of_aluForm hf] at hi
  · simp [isClass01] at hi
  · rw [exec_of_jumpForm hf, exec_of_jumpForm (s := s.setFlags f) ((jumpForm_setFlags hflag).trans hf)]
    cases taken <;> rfl
  · rfl
  · simp only [exec, execJr, State.setFlags_reg]
    refine State.withRead_related (R := fun x y => y = withNewFlags f x) hstop rfl fun target _ => ?_
    rw [State.setFlags_afterRead]
    rfl

/-- The outcome `y` is the outcome `x` but for the flags, and `x` itself where FLAG_RULE is interpreted. -/
def SameButFreeFlags (cfg : Config) (x y : Result) : Prop :=
  SameButFlags x y ∧ (cfg.flagRule ≠ .uninterpreted → y = x)

theorem sameButFreeFlags_stop (cfg : Config) (stop : Stop) : SameButFreeFlags cfg stop.result stop.result :=
  ⟨sameButFlags_stop stop, fun _ => rfl⟩

/-- A result written over other flags differs in the flags that an uninterpreted FLAG_RULE gives. -/
theorem sameButFreeFlags_writeAlu (s : State) (f : Flags) (op : AluOp) (dst : Reg) (a b : Word) (o : Operand) :
    SameButFreeFlags s.cfg (.next ((s.writeAlu op dst a b).pastOperand o))
      (.next (((s.setFlags f).writeAlu op dst a b).pastOperand o)) := by
  refine ⟨?_, fun h => ?_⟩
  · cases o <;> exact ⟨rfl, rfl, rfl, rfl, rfl⟩
  · simp only [State.writeAlu, State.setFlags_cfg, State.setFlags_flags, flagRule_congr f s.flags _ _ _ _ h]
    rfl

/-- An instruction of class 01 rewrites all three flags (R18, D13). -/
theorem exec_setFlags_of_class01 {i : Instr} (s : State) (f : Flags) (hi : isClass01 i = true) :
    SameButFreeFlags s.cfg (exec i s) (exec i (s.setFlags f)) := by
  have hstop := sameButFreeFlags_stop s.cfg
  obtain ⟨dst, o, hf⟩ | ⟨disp, dst1, src, rfl⟩ | ⟨disp, dst1, src, rfl⟩ | ⟨op, dst, o, hf⟩ | ⟨reg, rfl⟩ |
    ⟨taken, target, hf⟩ | ⟨lnk, disp, rfl⟩ | ⟨lnk, rfl⟩ := instr_shape s i
  · simp [isClass01_of_loadForm hf] at hi
  · simp [isClass01] at hi
  · simp [isClass01] at hi
  · obtain ⟨order, he⟩ := exec_of_aluForm_ordered hf s.cfg
    rw [he s rfl, he (s.setFlags f) rfl]
    refine State.withOperand_related hstop (unread_setFlags f s o) fun b u hu => ?_
    rw [State.setFlags_reg, ← State.readOperand_cfg hu]
    exact sameButFreeFlags_writeAlu u f op dst _ _ o
  · refine ⟨⟨rfl, rfl, rfl, rfl, rfl⟩, fun h => ?_⟩
    simp only [exec, execCmp, State.setFlags_cfg, State.setFlags_flags, flagRule_congr f s.flags _ _ _ _ h]
    rfl
  · simp [isClass01_of_jumpForm hf] at hi
  · simp [isClass01] at hi
  · simp [isClass01] at hi

/-- Settles O38: class 01 rewrites the flags that the other instructions keep. -/
theorem flagsAreReadOnlyByTheirJumps : Obligations.FlagsAreReadOnlyByTheirJumps := by
  intro i s f hflag
  cases hi : isClass01 i with
  | true =>
    obtain ⟨hsame, heq⟩ := exec_setFlags_of_class01 s f hi
    exact ⟨heq, hsame⟩
  | false =>
    have heq := exec_setFlags_of_not_class01 hi hflag
    exact ⟨fun _ => heq, heq ▸ sameButFlags_withNewFlags f _⟩

/-! ### Memory -/

theorem sameButMem_stop (stop : Stop) : SameButMem stop.result stop.result := by
  cases stop <;> rfl

theorem sameButMem_setMem (t : State) (m : Memory) : SameButMem (.next t) (.next (t.setMem m)) :=
  ⟨rfl, rfl, rfl, rfl, rfl, rfl, rfl⟩

/-- A read asks memory for the word at its address only. -/
theorem State.memRead_setMem {s : State} {m : Memory} {a : Word} (h : Memory.wordAt m a = Memory.wordAt s.mem a) :
    (s.setMem m).memRead a = s.memRead a := by
  simp [State.memRead, h]

/-- The memory `m` holds the words of `s` at the reads of `accs`. -/
def SameAtReads (s : State) (m : Memory) (accs : List Access) : Prop :=
  ∀ a, Access.read a ∈ accs → Memory.wordAt m a = Memory.wordAt s.mem a

theorem unread_setMem {s : State} {m : Memory} {o : Operand} (h : SameAtReads s m (s.operandAccesses o)) :
    Unread (fun u => u.setMem m) s o where
  reg _ _ := rfl
  memRead _ a hu ha := State.memRead_setMem (by rw [hu, h a ha])
  afterRead u a := State.setMem_afterRead u m a

theorem storeAt_sameButMem (a : Word) (src : Reg) (s : State) (m : Memory) :
    SameButMem (storeAt a src s) (storeAt a src (s.setMem m)) :=
  storeAt_related sameButMem_stop rfl ⟨rfl, rfl, rfl, rfl, rfl, rfl, rfl⟩ ⟨rfl, rfl, rfl, rfl, rfl, rfl, rfl⟩

/-- An instruction learns nothing of memory but the words of its data reads. -/
theorem exec_sameButMem {i : Instr} {s : State} {m : Memory} (h : SameAtReads s m (s.dataAccesses i)) :
    SameButMem (exec i s) (exec i (s.setMem m)) := by
  have hstop := sameButMem_stop
  obtain ⟨dst, o, hf⟩ | ⟨disp, dst1, src, rfl⟩ | ⟨disp, dst1, src, rfl⟩ | ⟨op, dst, o, hf⟩ | ⟨reg, rfl⟩ |
    ⟨taken, target, hf⟩ | ⟨lnk, disp, rfl⟩ | ⟨lnk, rfl⟩ := instr_shape s i
  · rw [dataAccesses_of_loadForm hf] at h
    rw [exec_of_loadForm hf, exec_of_loadForm hf]
    refine State.withOperand_related hstop (unread_setMem h) fun b u _ => ?_
    cases o <;> exact sameButMem_setMem _ m
  · exact storeAt_sameButMem _ src s m
  · refine State.withRead_related hstop (State.memRead_setMem (h _ (by simp [State.dataAccesses]))) fun ptr _ => ?_
    rw [State.setMem_afterRead]
    exact storeAt_sameButMem ptr src _ m
  · rw [dataAccesses_of_aluForm hf] at h
    obtain ⟨order, he⟩ := exec_of_aluForm_ordered hf s.cfg
    rw [he s rfl, he (s.setMem m) rfl]
    refine State.withOperand_related hstop (unread_setMem h) fun b u _ => ?_
    cases o <;> exact sameButMem_setMem _ m
  · exact sameButMem_setMem _ m
  · rw [exec_of_jumpForm hf, exec_of_jumpForm (s := s.setMem m) ((jumpForm_congr rfl i).trans hf)]
    cases taken <;> exact sameButMem_setMem _ m
  · exact sameButMem_setMem _ m
  · simp only [exec, execJr, State.setMem_reg]
    refine State.withRead_related hstop (State.memRead_setMem (h _ (by simp [State.dataAccesses]))) fun target _ => ?_
    rw [State.setMem_afterRead]
    exact sameButMem_setMem _ m

/-- A fetch learns nothing of memory but the words that it reads. -/
theorem State.fetch_setMem {s : State} {m : Memory} (h : SameAtReads s m s.fetchAccesses) :
    (s.setMem m).fetch = s.fetch.map fun p => (p.1, p.2.setMem m) := by
  have hfirst : (s.setMem m).memRead s.pc = s.memRead s.pc :=
    State.memRead_setMem (h s.pc (by simp [State.fetchAccesses]))
  cases hiw : s.memRead s.pc with
  | error stop => simp [State.fetch, hfirst, hiw, Except.map]
  | ok iw =>
    cases hrow : decodeFirst s.cfg iw with
    | error e => simp [State.fetch, hfirst, hiw, hrow, Except.map]
    | ok row =>
      obtain hw | hw := opTable_words (findRow_some (decodeFirst_ok.1 hrow).1).1
      · simp [State.fetch, hfirst, hiw, hrow, hw, Except.map, State.setMem_afterRead]
      · have hsecond : ((s.afterRead s.pc).setMem m).memRead (s.pc + 1#16) = (s.afterRead s.pc).memRead (s.pc + 1#16) :=
          State.memRead_setMem (by
            rw [State.afterRead_mem]
            exact h _ (by simp [State.fetchAccesses, hiw, hrow, hw]))
        cases hw2 : (s.afterRead s.pc).memRead (s.pc + 1#16) <;>
          simp [State.fetch, hfirst, hiw, hrow, hw, State.setMem_afterRead, hsecond, hw2, Except.map]

/-- Settles O43: the two fetches read the same words, and then the instruction the same data. -/
theorem stepReadsOnlyItsReadAccesses : Obligations.StepReadsOnlyItsReadAccesses := by
  intro s m h
  cases hh : s.halted with
  | true =>
    rw [step_halted hh, step_halted (s := s.setMem m) hh]
    exact sameButMem_setMem s m
  | false =>
    simp only [State.accesses, hh, Bool.false_eq_true, if_false] at h
    cases hf : s.fetch with
    | error stop =>
      rw [hf] at h
      have hf' : (s.setMem m).fetch = .error stop := by rw [State.fetch_setMem h, hf]; rfl
      rw [step_of_fetch_error hh hf, step_of_fetch_error (s := s.setMem m) hh hf']
      exact sameButMem_stop stop
    | ok p =>
      obtain ⟨i, u⟩ := p
      simp only [hf, List.mem_append] at h
      have hf' : (s.setMem m).fetch = .ok (i, u.setMem m) := by
        rw [State.fetch_setMem fun a ha => h a (.inl ha), hf]
        rfl
      rw [step_of_fetch hh hf, step_of_fetch (s := s.setMem m) hh hf']
      refine exec_sameButMem (s := u.nextWord) fun a ha => ?_
      rw [State.nextWord_mem, State.fetch_mem hf]
      exact h a (.inr (State.nextWord_dataAccesses u i ▸ ha))

end Sys2Proof.Machine
end
